-- ==== Sys2Proof/Word.lean ====
section
/-! DEFINITION. The word types of the core (spec/00_scope.md R3, R4): every value is unsigned, bit 0 is the least
significant bit. -/

namespace Sys2Proof

/-- A register `V0` to `VF`, a memory byte, the immediate `nn` (R3: 8 bits). -/
abbrev Byte := BitVec 8

/-- `pc`, `I`, `dt`, a stack entry, an instruction word (R3: 16 bits). -/
abbrev Word := BitVec 16

/-- A four-bit field of the instruction word: a register number `x` or `y`, the row count `n` (R61). -/
abbrev Nibble := BitVec 4

/-- The 12-bit address immediate `nnn` (R61). -/
abbrev Addr := BitVec 12

end Sys2Proof
end

