-- ==== Sys2Proof/Config.lean ====
section
/-! DEFINITION. What is fixed for this hardware (spec/00_scope.md R3), and the two values the spec leaves open by name:
`rnd` (spec/92_eei_decisions.md D15) and `FONTSET` (D16). -/

namespace Sys2Proof

/-- `MEM_SIZE` of R3: the memory has 4096 bytes. -/
@[simp] abbrev Config.memSize : Nat := 4096

/-- `STACK_DEPTH` of R3 and R17: 48 return addresses. -/
@[simp] abbrev Config.stackDepth : Nat := 48

/-- `PROG_BASE` of R3: the reset value of `pc` and the address at which `load` puts a ROM. -/
@[simp] abbrev Config.progBase : Nat := 512

/-- `ROM_MAX` of R3: the longest ROM `load` accepts. -/
@[simp] abbrev Config.romMax : Nat := 3584

/-- `FONT_SIZE` of R3: the fontset fills addresses 0 to 79. -/
@[simp] abbrev Config.fontSize : Nat := 80

/-- `rnd` of R27 and R131, the random byte: A FREE VALUE. DESIGN CHOICE (log entry 1): the `k`-th byte ever drawn is
`Config.rnd k`; it has no body, so nothing is known of it. SAFE for a claim about one run, UNSAFE for a claim that
compares two runs, which here draw the same bytes. -/
opaque Config.rnd : Nat → Byte

/-- `FONTSET` of R3 and R41, the byte at address `a` for `a` below 80: A FREE VALUE, since the source holds none of the 80
values (D16). DESIGN CHOICE (log entry 3): it has no body, as the spec asks that no proof depend on the contents. SAFE. -/
opaque Config.fontset : Nat → Byte

/-- The default table of the parameter `FONTSET` that spec/93_implementation_defined.md G1 gives from general knowledge.
PRESUMED (log entry 3): no definition of the machine uses it; a claim about this table takes `Config.HasDefaultFont` as
a hypothesis. SAFE. -/
def Config.defaultFont : List Byte :=
  [0xF0, 0x90, 0x90, 0x90, 0xF0, 0x20, 0x60, 0x20, 0x20, 0x70,
   0xF0, 0x10, 0xF0, 0x80, 0xF0, 0xF0, 0x10, 0xF0, 0x10, 0xF0] ++
  [0x90, 0x90, 0xF0, 0x10, 0x10, 0xF0, 0x80, 0xF0, 0x10, 0xF0,
   0xF0, 0x80, 0xF0, 0x90, 0xF0, 0xF0, 0x10, 0x20, 0x40, 0x40] ++
  [0xF0, 0x90, 0xF0, 0x90, 0xF0, 0xF0, 0x90, 0xF0, 0x10, 0xF0,
   0xF0, 0x90, 0xF0, 0x90, 0x90, 0xE0, 0x90, 0xE0, 0x90, 0xE0] ++
  [0xF0, 0x80, 0x80, 0x80, 0xF0, 0xE0, 0x90, 0x90, 0x90, 0xE0,
   0xF0, 0x80, 0xF0, 0x80, 0xF0, 0xF0, 0x80, 0xF0, 0x80, 0x80]

/-- The parameter `FONTSET` is the default table of G1. -/
def Config.HasDefaultFont : Prop :=
  ∀ a, a < Config.fontSize → Config.fontset a = Config.defaultFont.getD a 0

end Sys2Proof
end

