-- ==== Sys2Proof/WellFormed.lean ====
section
/-! DEFINITION. Which instructions and which ROMs are well formed. -/

namespace Sys2Proof

/-- Every `Instr` is well formed: R62 says of the fields that "all 16 values are legal" and of the immediates that each is
used at its own value, and the operand types of `Instr` hold exactly the values of R61's fields. No check is left to make
on an instruction. -/
def Instr.wellFormed (_ : Instr) : Bool := true

/-- R242: a ROM is acceptable to `load` when it has at most 3584 bytes. -/
def romWellFormed (rom : List Byte) : Bool := decide (rom.length ≤ Config.romMax)

/-- R70: a word is in the assembler's canonical spelling when its ignored bits are those the assembler writes: `00E0` and
`00EE` in full, a zero bottom nibble in groups 5 and 9, a zero `y` in the two shifts, a zero `x` in `Fx18`. A decoder accepts
the other spellings too. -/
def wordCanonical (op : Word) : Bool :=
  match (op.extractLsb' 12 4).toNat with
  | 0 => op == 0x00E0#16 || op == 0x00EE#16
  | 5 => op.extractLsb' 0 4 == 0#4
  | 8 =>
    if op.extractLsb' 0 4 == 6#4 || op.extractLsb' 0 4 == 14#4 then op.extractLsb' 4 4 == 0#4
    else true
  | 9 => op.extractLsb' 0 4 == 0#4
  | 15 => if op.extractLsb' 0 8 == 0x18#8 then op.extractLsb' 8 4 == 0#4 else true
  | _ => true

end Sys2Proof
end

