-- ==== Sys2Proof/Decode.lean ====
section
/-! DEFINITION. The decoder, the encoder and the opcode table (spec/30_encoding.md R60 to R74). -/

namespace Sys2Proof

/-- R61: the top nibble, `op[15:12]`. -/
def topNibble (op : Word) : Nibble := op.extractLsb' 12 4

/-- R61: `x = op[11:8]`. -/
def fieldX (op : Word) : Nibble := op.extractLsb' 8 4

/-- R61: `y = op[7:4]`. -/
def fieldY (op : Word) : Nibble := op.extractLsb' 4 4

/-- R61: `n = op[3:0]`. -/
def fieldN (op : Word) : Nibble := op.extractLsb' 0 4

/-- R61: `nn = op[7:0]`. -/
def fieldNN (op : Word) : Byte := op.extractLsb' 0 8

/-- R61: `nnn = op[11:0]`. -/
def fieldNNN (op : Word) : Addr := op.extractLsb' 0 12

/-- The four groups that hold unknown opcodes (R69), by name. -/
inductive UnknownGroup where
  /-- group 0, bottom nibble neither 0 nor E (R64) -/
  | group0
  /-- group 8, bottom nibble 8 to D or F (R66) -/
  | group8
  /-- group E, bottom byte neither 9E nor A1 (R67) -/
  | groupE
  /-- group F, bottom byte none of the nine (R68) -/
  | groupF
  deriving DecidableEq, Repr

/-- What the decoder answers for a word: the instruction it selects, or that it is an unknown opcode, and of which group. -/
inductive Decoded where
  | instr (i : Instr)
  | unknown (g : UnknownGroup)
  deriving DecidableEq, Repr

/-- R64: group 0 is decoded by its bottom nibble alone. -/
def decodeGroup0 (op : Word) : Decoded :=
  match (fieldN op).toNat with
  | 0 => .instr .cls
  | 14 => .instr .ret
  | _ => .unknown .group0

/-- R66: group 8 is decoded by its bottom nibble. -/
def decodeGroup8 (op : Word) : Decoded :=
  match (fieldN op).toNat with
  | 0 => .instr (.ldReg (fieldX op) (fieldY op))
  | 1 => .instr (.orReg (fieldX op) (fieldY op))
  | 2 => .instr (.andReg (fieldX op) (fieldY op))
  | 3 => .instr (.xorReg (fieldX op) (fieldY op))
  | 4 => .instr (.addReg (fieldX op) (fieldY op))
  | 5 => .instr (.subReg (fieldX op) (fieldY op))
  | 6 => .instr (.shr (fieldX op))
  | 7 => .instr (.subnReg (fieldX op) (fieldY op))
  | 14 => .instr (.shl (fieldX op))
  | _ => .unknown .group8

/-- R67: group E is decoded by its bottom byte. -/
def decodeGroupE (op : Word) : Decoded :=
  match (fieldNN op).toNat with
  | 0x9E => .instr (.skp (fieldX op))
  | 0xA1 => .instr (.sknp (fieldX op))
  | _ => .unknown .groupE

/-- R68: group F is decoded by its bottom byte. -/
def decodeGroupF (op : Word) : Decoded :=
  match (fieldNN op).toNat with
  | 0x07 => .instr (.ldVxDt (fieldX op))
  | 0x0A => .instr (.ldVxK (fieldX op))
  | 0x15 => .instr (.ldDtVx (fieldX op))
  | 0x18 => .instr (.ldStVx (fieldX op))
  | 0x1E => .instr (.addI (fieldX op))
  | 0x29 => .instr (.ldF (fieldX op))
  | 0x33 => .instr (.ldB (fieldX op))
  | 0x55 => .instr (.storeRegs (fieldX op))
  | 0x65 => .instr (.loadRegs (fieldX op))
  | _ => .unknown .groupF

/-- R63, the normative decode procedure: by the top nibble, then within groups 0, 8, E and F. It is total and depends on the
word alone. (The last arm is top nibble F: a nibble has no other value left.) -/
def decode (op : Word) : Decoded :=
  match (topNibble op).toNat with
  | 0x0 => decodeGroup0 op
  | 0x1 => .instr (.jp (fieldNNN op))
  | 0x2 => .instr (.call (fieldNNN op))
  | 0x3 => .instr (.seImm (fieldX op) (fieldNN op))
  | 0x4 => .instr (.sneImm (fieldX op) (fieldNN op))
  | 0x5 => .instr (.seReg (fieldX op) (fieldY op))
  | 0x6 => .instr (.ldImm (fieldX op) (fieldNN op))
  | 0x7 => .instr (.addImm (fieldX op) (fieldNN op))
  | 0x8 => decodeGroup8 op
  | 0x9 => .instr (.sneReg (fieldX op) (fieldY op))
  | 0xA => .instr (.ldI (fieldNNN op))
  | 0xB => .instr (.jpV0 (fieldNNN op))
  | 0xC => .instr (.rnd (fieldX op) (fieldNN op))
  | 0xD => .instr (.drw (fieldX op) (fieldY op) (fieldN op))
  | 0xE => decodeGroupE op
  | _ => decodeGroupF op

/-- R44: the byte at the lower address is the high byte of the word. -/
def wordOfBytes (hi lo : Byte) : Word := hi ++ lo

/-- The decoder on the two bytes of an instruction, in the order memory holds them (R44, R60). -/
def decodeBytes (hi lo : Byte) : Decoded := decode (wordOfBytes hi lo)

/-- R73: `(group << 12) | (x << 8) | (y << 4) | n`, formats XY and XYN. -/
def encodeXYN (group x y n : Nibble) : Word := group ++ x ++ y ++ n

/-- R73: `(group << 12) | (x << 8) | nn`, formats XI and XF. -/
def encodeXI (group x : Nibble) (nn : Byte) : Word := group ++ x ++ nn

/-- R73: `(group << 12) | nnn`, format A. -/
def encodeA (group : Nibble) (nnn : Addr) : Word := group ++ nnn

/-- R73: the word of an instruction with its operand fields as they are; what an instruction has no operand for is written as
R70 says. Of `Fx18` it keeps `x`, an operand of the table's row, so that decoding gives the instruction back; the word an
assembler writes is `assemble`. -/
def encode : Instr → Word
  | .cls => 0x00E0#16
  | .ret => 0x00EE#16
  | .jp nnn => encodeA 0x1#4 nnn
  | .call nnn => encodeA 0x2#4 nnn
  | .seImm x nn => encodeXI 0x3#4 x nn
  | .sneImm x nn => encodeXI 0x4#4 x nn
  | .seReg x y => encodeXYN 0x5#4 x y 0x0#4
  | .ldImm x nn => encodeXI 0x6#4 x nn
  | .addImm x nn => encodeXI 0x7#4 x nn
  | .ldReg x y => encodeXYN 0x8#4 x y 0x0#4
  | .orReg x y => encodeXYN 0x8#4 x y 0x1#4
  | .andReg x y => encodeXYN 0x8#4 x y 0x2#4
  | .xorReg x y => encodeXYN 0x8#4 x y 0x3#4
  | .addReg x y => encodeXYN 0x8#4 x y 0x4#4
  | .subReg x y => encodeXYN 0x8#4 x y 0x5#4
  | .shr x => encodeXYN 0x8#4 x 0x0#4 0x6#4
  | .subnReg x y => encodeXYN 0x8#4 x y 0x7#4
  | .shl x => encodeXYN 0x8#4 x 0x0#4 0xE#4
  | .sneReg x y => encodeXYN 0x9#4 x y 0x0#4
  | .ldI nnn => encodeA 0xA#4 nnn
  | .jpV0 nnn => encodeA 0xB#4 nnn
  | .rnd x nn => encodeXI 0xC#4 x nn
  | .drw x y n => encodeXYN 0xD#4 x y n
  | .skp x => encodeXI 0xE#4 x 0x9E#8
  | .sknp x => encodeXI 0xE#4 x 0xA1#8
  | .ldVxDt x => encodeXI 0xF#4 x 0x07#8
  | .ldVxK x => encodeXI 0xF#4 x 0x0A#8
  | .ldDtVx x => encodeXI 0xF#4 x 0x15#8
  | .ldStVx x => encodeXI 0xF#4 x 0x18#8
  | .addI x => encodeXI 0xF#4 x 0x1E#8
  | .ldF x => encodeXI 0xF#4 x 0x29#8
  | .ldB x => encodeXI 0xF#4 x 0x33#8
  | .storeRegs x => encodeXI 0xF#4 x 0x55#8
  | .loadRegs x => encodeXI 0xF#4 x 0x65#8

/-- The high and the low byte of a word (R73: `op[15:8]` stands at the lower address). -/
def highByte (op : Word) : Byte := op.extractLsb' 8 8

/-- See `highByte`. -/
def lowByte (op : Word) : Byte := op.extractLsb' 0 8

/-- One row of the opcode map of R63's section 5: a word selects the row when `op & mask = match`. -/
structure OpRow where
  mask : Word
  value : Word
  deriving DecidableEq, Repr

/-- A word selects a row. -/
def OpRow.selects (r : OpRow) (op : Word) : Bool := op &&& r.mask == r.value

/-- The row of the opcode map each instruction stands in, its mask and match as the map prints them. -/
def rowOf : Instr → OpRow
  | .cls => ⟨0xF00F#16, 0x0000#16⟩
  | .ret => ⟨0xF00F#16, 0x000E#16⟩
  | .jp _ => ⟨0xF000#16, 0x1000#16⟩
  | .call _ => ⟨0xF000#16, 0x2000#16⟩
  | .seImm _ _ => ⟨0xF000#16, 0x3000#16⟩
  | .sneImm _ _ => ⟨0xF000#16, 0x4000#16⟩
  | .seReg _ _ => ⟨0xF000#16, 0x5000#16⟩
  | .ldImm _ _ => ⟨0xF000#16, 0x6000#16⟩
  | .addImm _ _ => ⟨0xF000#16, 0x7000#16⟩
  | .ldReg _ _ => ⟨0xF00F#16, 0x8000#16⟩
  | .orReg _ _ => ⟨0xF00F#16, 0x8001#16⟩
  | .andReg _ _ => ⟨0xF00F#16, 0x8002#16⟩
  | .xorReg _ _ => ⟨0xF00F#16, 0x8003#16⟩
  | .addReg _ _ => ⟨0xF00F#16, 0x8004#16⟩
  | .subReg _ _ => ⟨0xF00F#16, 0x8005#16⟩
  | .shr _ => ⟨0xF00F#16, 0x8006#16⟩
  | .subnReg _ _ => ⟨0xF00F#16, 0x8007#16⟩
  | .shl _ => ⟨0xF00F#16, 0x800E#16⟩
  | .sneReg _ _ => ⟨0xF000#16, 0x9000#16⟩
  | .ldI _ => ⟨0xF000#16, 0xA000#16⟩
  | .jpV0 _ => ⟨0xF000#16, 0xB000#16⟩
  | .rnd _ _ => ⟨0xF000#16, 0xC000#16⟩
  | .drw _ _ _ => ⟨0xF000#16, 0xD000#16⟩
  | .skp _ => ⟨0xF0FF#16, 0xE09E#16⟩
  | .sknp _ => ⟨0xF0FF#16, 0xE0A1#16⟩
  | .ldVxDt _ => ⟨0xF0FF#16, 0xF007#16⟩
  | .ldVxK _ => ⟨0xF0FF#16, 0xF00A#16⟩
  | .ldDtVx _ => ⟨0xF0FF#16, 0xF015#16⟩
  | .ldStVx _ => ⟨0xF0FF#16, 0xF018#16⟩
  | .addI _ => ⟨0xF0FF#16, 0xF01E#16⟩
  | .ldF _ => ⟨0xF0FF#16, 0xF029#16⟩
  | .ldB _ => ⟨0xF0FF#16, 0xF033#16⟩
  | .storeRegs _ => ⟨0xF0FF#16, 0xF055#16⟩
  | .loadRegs _ => ⟨0xF0FF#16, 0xF065#16⟩

/-- R70, the map's column "ignored bits": the bits of an instruction's word that take part neither in decode nor in the
operation. -/
def ignoredBits : Instr → Word
  | .cls => 0x0FF0#16
  | .ret => 0x0FF0#16
  | .jp _ => 0x0000#16
  | .call _ => 0x0000#16
  | .seImm _ _ => 0x0000#16
  | .sneImm _ _ => 0x0000#16
  | .seReg _ _ => 0x000F#16
  | .ldImm _ _ => 0x0000#16
  | .addImm _ _ => 0x0000#16
  | .ldReg _ _ => 0x0000#16
  | .orReg _ _ => 0x0000#16
  | .andReg _ _ => 0x0000#16
  | .xorReg _ _ => 0x0000#16
  | .addReg _ _ => 0x0000#16
  | .subReg _ _ => 0x0000#16
  | .shr _ => 0x00F0#16
  | .subnReg _ _ => 0x0000#16
  | .shl _ => 0x00F0#16
  | .sneReg _ _ => 0x000F#16
  | .ldI _ => 0x0000#16
  | .jpV0 _ => 0x0000#16
  | .rnd _ _ => 0x0000#16
  | .drw _ _ _ => 0x0000#16
  | .skp _ => 0x0000#16
  | .sknp _ => 0x0000#16
  | .ldVxDt _ => 0x0000#16
  | .ldVxK _ => 0x0000#16
  | .ldDtVx _ => 0x0000#16
  | .ldStVx _ => 0x0F00#16
  | .addI _ => 0x0000#16
  | .ldF _ => 0x0000#16
  | .ldB _ => 0x0000#16
  | .storeRegs _ => 0x0000#16
  | .loadRegs _ => 0x0000#16

/-- R70: what an assembler writes in the ignored bits, `E` in bits 7:4 of `00E0` and `00EE` and 0 everywhere else. -/
def assemblerFill (i : Instr) : Word := if i = .cls ∨ i = .ret then 0x00E0#16 else 0x0000#16

/-- R70, R73: the word an assembler writes for an instruction, its ignored bits filled in. -/
def assemble (i : Instr) : Word := (encode i &&& ~~~ignoredBits i) ||| assemblerFill i

/-- One instruction of each row, in the table's order. -/
def oneOfEachRow : List Instr :=
  [.cls, .ret, .jp 0, .call 0, .seImm 0 0, .sneImm 0 0, .seReg 0 0, .ldImm 0 0, .addImm 0 0] ++
  [.ldReg 0 0, .orReg 0 0, .andReg 0 0, .xorReg 0 0, .addReg 0 0, .subReg 0 0, .shr 0, .subnReg 0 0, .shl 0] ++
  [.sneReg 0 0, .ldI 0, .jpV0 0, .rnd 0 0, .drw 0 0 0, .skp 0, .sknp 0] ++
  [.ldVxDt 0, .ldVxK 0, .ldDtVx 0, .ldStVx 0, .addI 0, .ldF 0, .ldB 0, .storeRegs 0, .loadRegs 0]

/-- The opcode map: its 34 rows. -/
def opcodeMap : List OpRow := oneOfEachRow.map rowOf

/-- The instruction the decoder reads from a table word: `w`'s low 16 bits (every row has 16 bits; bits above `nbits` are 0),
laid out as memory holds them, high byte first. -/
def decodeTableWord (nbits w : Nat) : Option Instr :=
  let op : Word := BitVec.ofNat 16 (w % 2 ^ nbits)
  match decodeBytes (highByte op) (lowByte op) with
  | .instr i => some i
  | .unknown _ => none

end Sys2Proof
end

