-- ==== Sys2Proof/Machine/State.lean ====
section
/-! DEFINITION. The state of the core, every piece the spec gives it (spec/10_state.md), its value after reset (R32), and the
reasons a step of the model can stop. -/

namespace Sys2Proof.Machine

/-- The `fault` register of R29, with its three legal values (value 3 "is never written", log entry 7). -/
inductive FaultReg where
  /-- code 0: the core runs -/
  | none
  /-- code 1: a `00EE` found the stack empty (R212); the core is halted -/
  | stackUnderflow
  /-- code 2: a `2nnn` found the stack full (R213); the core is halted -/
  | stackOverflow
  deriving DecidableEq, Repr

/-- The memory (R25, R40): the bytes that differ from the reset contents, as (address, byte) pairs in rising address
order. `Machine/Ops.lean` says what an unlisted address reads as. -/
abbrev Memory := List Host.Cell

/-- The framebuffer (R23): 32 rows of 64 one-bit cells; bit `c` of row `r` is the cell of column `c` and row `r`, whose flat
index is `64 * r + c`. DESIGN CHOICE (log entry 9): the arrangement only, every cell is there. SAFE. -/
abbrev Framebuffer := Vector (BitVec 64) 32

/-- The state of the core: all of it that spec/10_state.md names, and one field of the model's own, `draws`. -/
structure State where
  /-- `V0` to `VF` (R10); `VF` is also the flag (R11) -/
  v : Vector Byte 16
  /-- the index register `I` (R13) -/
  index : Word
  /-- the program counter (R14) -/
  pc : Word
  /-- the stack pointer (R18): 6 bits, 0 to 48 -/
  sp : BitVec 6
  /-- the return stack (R17) -/
  stack : Vector Word 48
  /-- the delay timer (R20) -/
  dt : Word
  /-- the key map (R22), written by the host -/
  keys : Vector Bool 16
  /-- the framebuffer (R23) -/
  fb : Framebuffer
  /-- the draw flag (R24) -/
  drawFlag : Bool
  /-- the memory (R25) -/
  mem : Memory
  /-- the fault register (R29) -/
  fault : FaultReg
  /-- THE MODEL'S OWN: how many random bytes `Cxnn` has drawn; it selects the free value `Config.rnd draws` (log entries 1, 2) -/
  draws : Nat
  deriving DecidableEq, Repr

/-- Why a step of the model can stop with a fault. The faults of the spec (R210) are not here: their entry is described by
the spec, and a step that raises one answers a next state with `State.fault` written (R216). -/
inductive Fault where
  /-- Raised by `00EE` when `sp` is 49 to 63: it would pop `stack[48]` or above, which does not exist (R17, R54). The spec calls
  these values unreachable (R18). SAFE: the model stops in states no run reaches (log entry 5). -/
  | noStackEntry
  deriving DecidableEq, Repr

/-- Why a step of the model can be refused. -/
inductive Refusal where
  /-- Raised by `exec` for an instruction that has no meaning in the model. No arm of `exec` answers it now. SAFE. -/
  | notModelled (mnemonic : String)
  deriving DecidableEq, Repr

/-- R32, R240: the state right after `reset`. Memory lists nothing: every byte holds its reset contents. `draws` is the
model's own field: DESIGN CHOICE 0 (log entry 2). -/
def State.reset : State where
  v := Vector.replicate 16 0
  index := 0
  pc := 512
  sp := 0
  stack := Vector.replicate 48 0
  dt := 0
  keys := Vector.replicate 16 false
  fb := Vector.replicate 32 0
  drawFlag := false
  mem := []
  fault := .none
  draws := 0

end Sys2Proof.Machine
end

