-- ==== Sys2Proof/Machine/Ops.lean ====
section
/-! DEFINITION. The named operations over memory, framebuffer, keys, stack and registers (spec/00_scope.md R5), the
instruction fetch (R44), taking a fault (R216), the unknown opcode (R211) and the end of a step (R21).

There is no return from a fault (R217): only `reset` clears the fault register, so no operation here does. -/

namespace Sys2Proof.Machine

/-! ### Memory (R40 to R43) -/

/-- What an address holds while nothing has been written there: the reset contents of R32 and R41, `FONTSET` at 0 to 79 and
zero elsewhere (log entries 3, 4). -/
def memBackground (a : Nat) : Byte := if a < Config.fontSize then Config.fontset a else 0

/-- The byte at an address of the 4096. -/
def memGet : Memory → Nat → Byte
  | [], a => memBackground a
  | (b, v) :: m, a => if a = b then v else memGet m a

/-- Write the byte at an address, keeping the canonical form: addresses strictly rising, no entry that equals the
background. -/
def memSet : Memory → Nat → Byte → Memory
  | [], a, w => if w = memBackground a then [] else [(a, w)]
  | (b, v) :: m, a, w =>
    if a < b then (if w = memBackground a then (b, v) :: m else (a, w) :: (b, v) :: m)
    else if a = b then (if w = memBackground a then m else (a, w) :: m)
    else (b, v) :: memSet m a w

/-- The canonical form from address `lo` on: addresses strictly rising and below 4096, no entry equal to the background. -/
def memWfFrom : Nat → Memory → Bool
  | _, [] => true
  | lo, (a, v) :: m =>
    decide (lo ≤ a) && decide (a < Config.memSize) && decide (v ≠ memBackground a) && memWfFrom (a + 1) m

/-- The canonical form of a memory. -/
def Memory.wf (m : Memory) : Bool := memWfFrom 0 m

/-- `MemRead(addr, 1)` of R43: the address is reduced mod 4096 (R42). -/
def memRead (m : Memory) (addr : Nat) : Byte := memGet m (addr % Config.memSize)

/-- `MemWrite(addr, 1, v)` of R43: the address is reduced mod 4096 (R42); nothing is write-protected (R47). -/
def memWrite (m : Memory) (addr : Nat) (w : Byte) : Memory := memSet m (addr % Config.memSize) w

/-- Bytes at `addr`, `addr + 1` and so on, in ascending order (R46). -/
def memWriteBytes (m : Memory) (addr : Nat) : List Byte → Memory
  | [] => m
  | w :: ws => memWriteBytes (memWrite m addr w) (addr + 1) ws

/-! ### The framebuffer (R23, R52) -/

/-- A row with the cell of column `c` set to `b`. -/
def setCell (row : BitVec 64) (c : Nat) (b : Bool) : BitVec 64 :=
  if b then row ||| BitVec.twoPow 64 c else row &&& ~~~ BitVec.twoPow 64 c

/-- `FbRead(idx)` of R52: the flat index is reduced mod 2048. -/
def fbRead (fb : Framebuffer) (idx : Nat) : Bool := fb[idx % 2048 / 64].getLsbD (idx % 64)

/-- `FbWrite(idx, b)` of R52: the flat index is reduced mod 2048. -/
def fbWrite (fb : Framebuffer) (idx : Nat) (b : Bool) : Framebuffer :=
  fb.set (idx % 2048 / 64) (setCell fb[idx % 2048 / 64] (idx % 64) b)

/-- All 2048 cells 0 (R170). -/
def fbClear : Framebuffer := Vector.replicate 32 0

/-! ### Registers (R5, R10 to R15) -/

/-- `V[i]`. -/
def State.getV (s : State) (r : Nibble) : Byte := s.v[r.toNat]

/-- `V[i] <- b`. -/
def State.setV (s : State) (r : Nibble) (b : Byte) : State := { s with v := s.v.set r.toNat b }

/-- `I <- a`. -/
def State.setIndex (s : State) (a : Word) : State := { s with index := a }

/-- `dt <- t`. -/
def State.setDt (s : State) (t : Word) : State := { s with dt := t }

/-- `pc <- target`. -/
def State.setPc (s : State) (target : Word) : State := { s with pc := target }

/-- `pc <- (pc + 2) mod 65536`, the sequencer's default (R15). -/
def State.next (s : State) : State := s.setPc (s.pc + 2)

/-- "Skip next" (R103): `pc + 4` when the condition holds, else `pc + 2`, mod 65536 (R15). -/
def State.skipIf (s : State) (c : Bool) : State := s.setPc (if c then s.pc + 4 else s.pc + 2)

/-- `memory <- m`. -/
def State.setMem (s : State) (m : Memory) : State := { s with mem := m }

/-- `framebuffer <- fb` and `draw_flag <- true`, which go together in both display instructions (R24). -/
def State.setFb (s : State) (fb : Framebuffer) : State := { s with fb := fb, drawFlag := true }

/-- One random byte of R27 has been consumed (R131): the model's own counter moves on (log entry 2). -/
def State.drawn (s : State) : State := { s with draws := s.draws + 1 }

/-! ### The stack (R17, R18, R54) -/

/-- `stack[k]`, if there is an entry `k`. -/
def State.stackEntry (s : State) (k : BitVec 6) : Option Word := s.stack[k.toNat]?

/-- `stack[sp] <- w; sp <- sp + 1` (R102); it writes only within 0 to 47 (R54). -/
def State.push (s : State) (w : Word) : State :=
  { s with stack := s.stack.setIfInBounds s.sp.toNat w, sp := s.sp + 1 }

/-- `sp <- sp - 1` (R100); the popped entry is not erased (R18). -/
def State.popped (s : State) : State := { s with sp := s.sp - 1 }

/-! ### Keys (R22, R53) -/

/-- The flag of one key. -/
def State.key (s : State) (k : Nibble) : Bool := s.keys[k.toNat]

/-! ### Faults and the step's ends (R211, R216, R21) -/

/-- `raise cause` of R216: the only state change is `fault <- cause`. The saved program counter is `pc` itself, which keeps
the address of the faulting instruction; there is no vector, no mode and no handler. -/
def State.raise (s : State) (cause : FaultReg) : State := { s with fault := cause }

/-- The 2-bit code of the fault register (R29, R210). -/
def faultCode : FaultReg → BitVec 2
  | .none => 0
  | .stackUnderflow => 1
  | .stackOverflow => 2

/-- The core is halted when the fault register is not `None` (R216). -/
def State.halted (s : State) : Bool := decide (s.fault ≠ .none)

/-- The state after an unknown opcode's own rule (R211): `pc + 2` and nothing else. -/
def State.unknownOpcode (s : State) : State := s.next

/-- `tick()` of R21: `if dt != 0 then dt <- dt - 1`. -/
def State.tick (s : State) : State := if s.dt = 0 then s else s.setDt (s.dt - 1)

/-- The end of a step (R33): the tick, unless the instruction's rule raised a fault. -/
def State.endStep (s : State) : State := if s.halted then s else s.tick

/-- `endStep` on the outcome of an instruction's rule. -/
def endOutcome : Host.Outcome State Fault Refusal → Host.Outcome State Fault Refusal
  | .next s => .next s.endStep
  | .fault r => .fault r
  | .refused r => .refused r

/-! ### Instruction fetch (R44) and the report event (R28, R211) -/

/-- The high byte, at `pc` (R44). -/
def State.fetchHi (s : State) : Byte := memRead s.mem s.pc.toNat

/-- The low byte, at `pc + 1` mod 65536 (R33, R44). -/
def State.fetchLo (s : State) : Byte := memRead s.mem (s.pc + 1).toNat

/-- The instruction word at `pc`, big-endian (R44). -/
def State.fetch (s : State) : Word := wordOfBytes s.fetchHi s.fetchLo

/-- The word at `pc`, decoded (R33). -/
def State.fetched (s : State) : Decoded := decodeBytes s.fetchHi s.fetchLo

/-- `report UnknownOpcode(op)` of R28 and R211: the event the step from `s` emits, if it emits one. It "is not stored in any
register", so it is a function of the state the step starts from and no field of it (log entry 6). -/
def State.report (s : State) : Option Word :=
  match s.halted, s.fetched with
  | false, .unknown _ => some s.fetch
  | _, _ => none

/-- `s` with the two bytes of a word where the next fetch reads them, and the core not halted (log entry 11). -/
def State.placeWord (s : State) (op : Word) : State :=
  { s with
    mem := memWrite (memWrite s.mem s.pc.toNat (highByte op)) (s.pc + 1).toNat (lowByte op)
    fault := .none }

end Sys2Proof.Machine
end

