-- ==== Sys2Proof/Machine/Flags.lean ====
section
/-! DEFINITION. Every flag computation of the instruction set (R11): carry (R126), no borrow (R127, R129), the bit shifted
out (R128, R130), and the order in which a result and its flag are written (R12). The collision flag (R171) is computed with
the sprite, in Machine/Display.lean. -/

namespace Sys2Proof.Machine

/-- The flag value written to `VF`: "always 0 or 1" (R11). -/
def flagByte (b : Bool) : Byte := if b then 1 else 0

/-- The carry of `8xy4` (R126): the sum of the two bytes exceeds 0xFF. -/
def carryOut (a b : Byte) : Bool := decide (a.toNat + b.toNat > 255)

/-- No borrow in `a - b` (R127, R129, R132): the minuend is greater than or equal to the subtrahend. -/
def noBorrow (a b : Byte) : Bool := decide (a.toNat ≥ b.toNat)

/-- The bit a right shift by one shifts out (R128). -/
def lowBit (a : Byte) : Bool := a.getLsbD 0

/-- The bit a left shift by one shifts out (R130). -/
def highBit (a : Byte) : Bool := a.getLsbD 7

/-- R12: the result goes to `V[x]` first and the flag to `VF` last, so that the flag stays when `x = F`. -/
def State.setResultFlag (s : State) (x : Nibble) (result : Byte) (flag : Bool) : State :=
  (s.setV x result).setV 0xF (flagByte flag)

end Sys2Proof.Machine
end

