-- ==== Sys2Proof/Machine/Operands.lean ====
section
/-! DEFINITION. Every operand form of the instruction set: zero-extended immediates (R62), the register-indirect data
address (R156), targets (R101, R107), the glyph address (R152), the BCD digits (R153), the register block (R154, R155),
the selected key and the highest key (R53, R193), the random operand (R131), the sprite (R171). -/

namespace Sys2Proof.Machine

/-- `zext_16(nnn)` (R62). -/
def zextAddr (nnn : Addr) : Word := nnn.setWidth 16

/-- `zext_16(V[x])` (R62). -/
def zextByte (b : Byte) : Word := b.setWidth 16

/-- The one addressing mode for data (R156): `EA = I + k`, not yet reduced. -/
def State.dataAddr (s : State) (k : Nat) : Nat := s.index.toNat + k

/-- The target of `Bnnn` (R107): `nnn + V[0]`, not reduced to 12 bits. -/
def State.indexedTarget (s : State) (nnn : Addr) : Word := zextAddr nnn + zextByte (s.getV 0)

/-- The glyph address of `Fx29` (R152): five times the whole byte. -/
def glyphAddr (b : Byte) : Word := zextByte b * 5

/-- The hundreds, tens and ones digit of a byte (R153). -/
def bcdDigits (b : Byte) : List Byte :=
  [BitVec.ofNat 8 (b.toNat / 100), BitVec.ofNat 8 (b.toNat / 10 % 10), BitVec.ofNat 8 (b.toNat % 10)]

/-- The registers `V0` to `Vx` inclusive, in order (R154). -/
def State.regBlock (s : State) (x : Nibble) : List Byte :=
  (List.range (x.toNat + 1)).map fun k => s.getV (BitVec.ofNat 4 k)

/-- `for k = 0 to x do V[k] <- MemRead(I + k, 1)` (R155). The addresses depend on `I` and `k` only. -/
def State.loadBlock (s : State) (x : Nibble) : State :=
  (List.range (x.toNat + 1)).foldl (fun t k => t.setV (BitVec.ofNat 4 k) (memRead s.mem (s.dataAddr k))) s

/-- `Key(V[x])` (R53): the key whose number is the low 4 bits of the register. -/
def State.selectedKey (s : State) (x : Nibble) : Bool := s.key ((s.getV x).setWidth 4)

/-- The scan of `Fx0A` (R193): over keys 0 to 15 in order, a later pressed key replacing an earlier one. -/
def State.highestKey (s : State) : Option Nibble :=
  (List.range 16).foldl (fun found k => if s.key (BitVec.ofNat 4 k) then some (BitVec.ofNat 4 k) else found) none

/-- `rnd & nn` of R131, the random byte free. -/
def State.randomOperand (s : State) (nn : Byte) : Byte := Config.rnd s.draws &&& nn

/-- The `n` row bytes of a sprite, read at `I` upward (R171). -/
def State.spriteRows (s : State) (n : Nibble) : List Byte :=
  (List.range n.toNat).map fun i => memRead s.mem (s.dataAddr i)

end Sys2Proof.Machine
end

