-- ==== Sys2Proof/Machine/Alu.lean ====
section
/-! DEFINITION. Register load, add immediate, the register-register group, random (spec/41_alu.md). Every meaning ends with
`pc + 2`; operands are read from the state before the instruction (R12, R132). -/

namespace Sys2Proof.Machine

/-- `6xnn` (R120). -/
def execLdImm (x : Nibble) (nn : Byte) (s : State) : Host.Outcome State Fault Refusal := .next (s.setV x nn).next

/-- `7xnn` (R121): mod 256, no flag. -/
def execAddImm (x : Nibble) (nn : Byte) (s : State) : Host.Outcome State Fault Refusal :=
  .next (s.setV x (s.getV x + nn)).next

/-- `8xy0` (R122). -/
def execLdReg (x y : Nibble) (s : State) : Host.Outcome State Fault Refusal := .next (s.setV x (s.getV y)).next

/-- `8xy1` (R123). -/
def execOrReg (x y : Nibble) (s : State) : Host.Outcome State Fault Refusal :=
  .next (s.setV x (s.getV x ||| s.getV y)).next

/-- `8xy2` (R124). -/
def execAndReg (x y : Nibble) (s : State) : Host.Outcome State Fault Refusal :=
  .next (s.setV x (s.getV x &&& s.getV y)).next

/-- `8xy3` (R125). -/
def execXorReg (x y : Nibble) (s : State) : Host.Outcome State Fault Refusal :=
  .next (s.setV x (s.getV x ^^^ s.getV y)).next

/-- `8xy4` (R126): VF is the carry. -/
def execAddReg (x y : Nibble) (s : State) : Host.Outcome State Fault Refusal :=
  .next (s.setResultFlag x (s.getV x + s.getV y) (carryOut (s.getV x) (s.getV y))).next

/-- `8xy5` (R127): VF is 1 when `V[x] >= V[y]`. -/
def execSubReg (x y : Nibble) (s : State) : Host.Outcome State Fault Refusal :=
  .next (s.setResultFlag x (s.getV x - s.getV y) (noBorrow (s.getV x) (s.getV y))).next

/-- `8xy6` (R128): `V[x]` in place, VF its old bit 0. -/
def execShr (x : Nibble) (s : State) : Host.Outcome State Fault Refusal :=
  .next (s.setResultFlag x (s.getV x >>> 1) (lowBit (s.getV x))).next

/-- `8xy7` (R129): VF is 1 when `V[y] >= V[x]`. -/
def execSubnReg (x y : Nibble) (s : State) : Host.Outcome State Fault Refusal :=
  .next (s.setResultFlag x (s.getV y - s.getV x) (noBorrow (s.getV y) (s.getV x))).next

/-- `8xyE` (R130): `V[x]` in place, VF its old bit 7. -/
def execShl (x : Nibble) (s : State) : Host.Outcome State Fault Refusal :=
  .next (s.setResultFlag x (s.getV x <<< 1) (highBit (s.getV x))).next

/-- `Cxnn` (R131): a free byte masked by `nn` (log entry 1). -/
def execRnd (x : Nibble) (nn : Byte) (s : State) : Host.Outcome State Fault Refusal :=
  .next (s.setV x (s.randomOperand nn)).drawn.next

end Sys2Proof.Machine
end

