-- ==== Sys2Proof/Machine/Display.lean ====
section
/-! DEFINITION. The display instructions and the collision detector (spec/43_display.md R170, R171). -/

namespace Sys2Proof.Machine

/-- What the sprite loop of R171 carries: the framebuffer, and whether a cell that was 1 has been toggled off. -/
structure Canvas where
  fb : Framebuffer
  collision : Bool
  deriving DecidableEq, Repr

/-- The innermost lines of R171: read the cell, note a collision, write the cell XOR 1. -/
def plotCell (c : Canvas) (idx : Nat) : Canvas where
  fb := fbWrite c.fb idx (!fbRead c.fb idx)
  collision := c.collision || fbRead c.fb idx

/-- The flat index of R171, over the integers: `64 * (y0 + i) + (x0 + j)`. -/
def cellIndex (x0 y0 i j : Nat) : Nat := 64 * (y0 + i) + (x0 + j)

/-- One row of the sprite: columns 0 to 7, where "bit `j` (from MSB)" is bit `7 - j`. A bit that is 0 touches nothing. -/
def drawRow (x0 y0 i : Nat) (row : Byte) (c : Canvas) : Canvas :=
  (List.range 8).foldl (fun c j => if row.getLsbD (7 - j) then plotCell c (cellIndex x0 y0 i j) else c) c

/-- The rows of the sprite, from row `i` on. -/
def drawRows (x0 y0 : Nat) : Nat → List Byte → Canvas → Canvas
  | _, [], c => c
  | i, row :: rows, c => drawRows x0 y0 (i + 1) rows (drawRow x0 y0 i row c)

/-- The canvas after `Dxyn`: `V[x]` is the column and `V[y]` the row, both read before `VF` is written (R171, R12). -/
def State.canvasAfter (s : State) (x y n : Nibble) : Canvas :=
  drawRows (s.getV x).toNat (s.getV y).toNat 0 (s.spriteRows n) ⟨s.fb, false⟩

/-- `00E0` (R170). -/
def execCls (s : State) : Host.Outcome State Fault Refusal := .next (s.setFb fbClear).next

/-- `Dxyn` (R171): `draw_flag` is always set and `VF` always written. -/
def execDrw (x y n : Nibble) (s : State) : Host.Outcome State Fault Refusal :=
  .next ((s.setFb (s.canvasAfter x y n).fb).setV 0xF (flagByte (s.canvasAfter x y n).collision)).next

end Sys2Proof.Machine
end

