-- ==== Sys2Proof/Machine/Flow.lean ====
section
/-! DEFINITION. Control transfer (spec/40_flow.md): return, jump, call, the conditional skips on registers, the indexed jump.
Each definition is the body of a step, between the fetch and the tick (R33); `pc` still holds the instruction's own address. -/

namespace Sys2Proof.Machine

/-- `00EE` (R100): pop into `pc` and add 2; `StackUnderflow` with an empty stack (R212). DEDUCED (log entry 5): `sp` above 48
selects no entry, and the model stops. SAFE. -/
def execRet (s : State) : Host.Outcome State Fault Refusal :=
  if s.sp = 0 then .next (s.raise .stackUnderflow)
  else
    match s.stackEntry (s.sp - 1) with
    | some a => .next (s.popped.setPc (a + 2))
    | none => .fault .noStackEntry

/-- `1nnn` (R101). -/
def execJp (nnn : Addr) (s : State) : Host.Outcome State Fault Refusal := .next (s.setPc (zextAddr nnn))

/-- `2nnn` (R102): push the address of this instruction and jump; `StackOverflow` with a full stack (R213). R54: it writes
"only when `sp <= 47`", and "outside those conditions the instruction raises a fault". -/
def execCall (nnn : Addr) (s : State) : Host.Outcome State Fault Refusal :=
  if s.sp.toNat < Config.stackDepth then .next ((s.push s.pc).setPc (zextAddr nnn))
  else .next (s.raise .stackOverflow)

/-- `3xnn` (R103). -/
def execSeImm (x : Nibble) (nn : Byte) (s : State) : Host.Outcome State Fault Refusal :=
  .next (s.skipIf (decide (s.getV x = nn)))

/-- `4xnn` (R104). -/
def execSneImm (x : Nibble) (nn : Byte) (s : State) : Host.Outcome State Fault Refusal :=
  .next (s.skipIf (decide (s.getV x ≠ nn)))

/-- `5xy0` (R105). -/
def execSeReg (x y : Nibble) (s : State) : Host.Outcome State Fault Refusal :=
  .next (s.skipIf (decide (s.getV x = s.getV y)))

/-- `9xy0` (R106). -/
def execSneReg (x y : Nibble) (s : State) : Host.Outcome State Fault Refusal :=
  .next (s.skipIf (decide (s.getV x ≠ s.getV y)))

/-- `Bnnn` (R107). -/
def execJpV0 (nnn : Addr) (s : State) : Host.Outcome State Fault Refusal := .next (s.setPc (s.indexedTarget nnn))

end Sys2Proof.Machine
end

