-- ==== Sys2Proof/Machine/IndexMemory.lean ====
section
/-! DEFINITION. The index register and memory instructions (spec/42_index_memory.md). Every meaning ends with `pc + 2`;
none writes `VF` as a flag. -/

namespace Sys2Proof.Machine

/-- `Annn` (R150). -/
def execLdI (nnn : Addr) (s : State) : Host.Outcome State Fault Refusal := .next (s.setIndex (zextAddr nnn)).next

/-- `Fx1E` (R151): mod 65536, no flag. -/
def execAddI (x : Nibble) (s : State) : Host.Outcome State Fault Refusal :=
  .next (s.setIndex (s.index + zextByte (s.getV x))).next

/-- `Fx29` (R152). -/
def execLdF (x : Nibble) (s : State) : Host.Outcome State Fault Refusal :=
  .next (s.setIndex (glyphAddr (s.getV x))).next

/-- `Fx33` (R153): hundreds at `I`, tens at `I + 1`, ones at `I + 2`. -/
def execLdB (x : Nibble) (s : State) : Host.Outcome State Fault Refusal :=
  .next (s.setMem (memWriteBytes s.mem (s.dataAddr 0) (bcdDigits (s.getV x)))).next

/-- `Fx55` (R154): `V[k]` to `I + k` for `k = 0` to `x`; `I` unchanged. -/
def execStoreRegs (x : Nibble) (s : State) : Host.Outcome State Fault Refusal :=
  .next (s.setMem (memWriteBytes s.mem (s.dataAddr 0) (s.regBlock x))).next

/-- `Fx65` (R155): the byte at `I + k` to `V[k]` for `k = 0` to `x`; `I` unchanged. -/
def execLoadRegs (x : Nibble) (s : State) : Host.Outcome State Fault Refusal := .next (s.loadBlock x).next

end Sys2Proof.Machine
end

