-- ==== Sys2Proof/Machine/KeysTimer.lean ====
section
/-! DEFINITION. Key and timer instructions (spec/44_keys_timer.md). The tick that follows every one of them is the step's
(R21, R33), not theirs. -/

namespace Sys2Proof.Machine

/-- `Ex9E` (R190): skip when the selected key is pressed. -/
def execSkp (x : Nibble) (s : State) : Host.Outcome State Fault Refusal := .next (s.skipIf (s.selectedKey x))

/-- `ExA1` (R191): skip when the selected key is not pressed. -/
def execSknp (x : Nibble) (s : State) : Host.Outcome State Fault Refusal := .next (s.skipIf (!s.selectedKey x))

/-- `Fx07` (R192): the low 8 bits of the timer, before this step's tick. -/
def execLdVxDt (x : Nibble) (s : State) : Host.Outcome State Fault Refusal :=
  .next (s.setV x (s.dt.setWidth 8)).next

/-- `Fx0A` (R193): the highest pressed key to `V[x]` and `pc + 2`; with no key pressed nothing changes, `pc` included. -/
def execLdVxK (x : Nibble) (s : State) : Host.Outcome State Fault Refusal :=
  match s.highestKey with
  | some k => .next (s.setV x (k.setWidth 8)).next
  | none => .next s

/-- `Fx15` (R194). -/
def execLdDtVx (x : Nibble) (s : State) : Host.Outcome State Fault Refusal :=
  .next (s.setDt (zextByte (s.getV x))).next

/-- `Fx18` (R195): there is no sound timer; the operand is not read. -/
def execLdStVx (_x : Nibble) (s : State) : Host.Outcome State Fault Refusal := .next s.next

end Sys2Proof.Machine
end

