-- ==== Sys2Proof/Machine/Step.lean ====
section
/-! DEFINITION. The one transition of the core (spec/10_state.md R33). -/

namespace Sys2Proof.Machine

/-- R33: a halted core does nothing; otherwise fetch, decode, run the matching rule or the unknown-opcode rule, and tick
unless the rule raised a fault. -/
def step (s : State) : Host.Outcome State Fault Refusal :=
  if s.halted then .next s
  else
    match s.fetched with
    | .instr i => endOutcome (exec i s)
    | .unknown _ => endOutcome (.next s.unknownOpcode)

/-- `s` with the instruction of table word `w` (its low `nbits` bits, 16 for every row) where `step` fetches next. The core is
taken out of a halt, since a halted core fetches nothing (log entry 11). -/
def State.withFetchWord (s : State) (nbits w : Nat) : State := s.placeWord (BitVec.ofNat 16 (w % 2 ^ nbits))

end Sys2Proof.Machine
end

