-- ==== Sys2Proof/Machine/HostPort.lean ====
section
/-! DEFINITION. The host's side of the interface (spec/70_reset_and_hazards.md R240 to R244, spec/10_state.md R26, R28, R31):
the commands `reset`, `load` and `step` in their order, and the host's moves between steps. -/

namespace Sys2Proof.Machine

/-- What the `load` command answers (R214): the loaded core, or the failure, which leaves the core as it was. -/
inductive LoadResult where
  | loaded (s : State)
  | romTooLarge
  deriving DecidableEq, Repr

/-- `load(bytes)` (R241, R242): the ROM to 512 upward, nothing else changed; more than 3584 bytes fail. -/
def State.load (s : State) (rom : List Byte) : LoadResult :=
  if romWellFormed rom then .loaded (s.setMem (memWriteBytes s.mem Config.progBase rom)) else .romTooLarge

/-- The `reset` command (R240, R32). The model's own `draws` goes on, so that the random bytes after a reset are not those
before it (log entry 2). -/
def State.resetCommand (s : State) : State := { State.reset with draws := s.draws }

/-- The host writes one key's flag (R22, R244). -/
def State.writeKey (s : State) (k : Nibble) (pressed : Bool) : State := { s with keys := s.keys.set k.toNat pressed }

/-- The host clears `draw_flag` after it consumed a frame (R24, R244). -/
def State.consumeFrame (s : State) : State := { s with drawFlag := false }

/-- The host reads the frame "only when `draw_flag` is true" (R244). -/
def State.readFrame (s : State) : Option Framebuffer := if s.drawFlag then some s.fb else none

/-- The host reads the fault register (R29). -/
def State.readFault (s : State) : BitVec 2 := faultCode s.fault

/-- How far the order of R243 has come: after `reset`, after `load`, after the first `step`. -/
inductive Phase where
  | fresh
  | loaded
  | running
  deriving DecidableEq, Repr

/-- The core and the host's progress in R243's order. A session starts at `reset`: R240 gives the state before the first
`reset` no value. -/
structure Session where
  core : State
  phase : Phase
  deriving DecidableEq, Repr

/-- The session right after the first `reset`. -/
def Session.start : Session := ⟨State.reset, .fresh⟩

/-- The host's moves that change something (R244), `step` included. -/
inductive Move where
  | reset
  | load (rom : List Byte)
  | step
  | writeKey (k : Nibble) (pressed : Bool)
  | consumeFrame
  deriving DecidableEq, Repr

/-- What the host learns from a move. -/
inductive Reply where
  | done
  | romTooLarge
  /-- a step, with the `report` event if it emitted one (R28, R211) -/
  | stepped (report : Option Word)
  deriving DecidableEq, Repr

/-- The session after `load` (R241 to R243): allowed after `reset` and before the first `step`; a failed load leaves the
session as it was. `none`: R243 gives a `load` after stepping no meaning. -/
def Session.load (a : Session) (rom : List Byte) : Option (Session × Reply) :=
  match a.phase, a.core.load rom with
  | .running, _ => none
  | _, .loaded s => some (⟨s, .loaded⟩, .done)
  | _, .romTooLarge => some (a, .romTooLarge)

/-- The session after `step` (R33, R243): allowed once a ROM has been loaded. `none`: R243 gives a `step` before `load` no
meaning, and the model's own stop (log entry 5) is no move. -/
def Session.step (a : Session) : Option (Session × Reply) :=
  match a.phase, Sys2Proof.Machine.step a.core with
  | .fresh, _ => none
  | _, .next s => some (⟨s, .running⟩, .stepped a.core.report)
  | _, .fault _ => none
  | _, .refused _ => none

/-- One move of the host (R244). `none`: the spec gives the move no meaning there (log entry 8). -/
def Session.move (a : Session) : Move → Option (Session × Reply)
  | .reset => some (⟨a.core.resetCommand, .fresh⟩, .done)
  | .load rom => a.load rom
  | .step => a.step
  | .writeKey k p => some (⟨a.core.writeKey k p, a.phase⟩, .done)
  | .consumeFrame => some (⟨a.core.consumeFrame, a.phase⟩, .done)

end Sys2Proof.Machine
end

