-- ==== Sys2Proof/Safety.lean ====
section
/-! DEFINITION. What counts as a legal state, a reachable session and a safe run, in the terms claims use. -/

namespace Sys2Proof

open Sys2Proof.Machine

/-- The invariant of R34, with the canonical form of the memory: `0 <= sp <= 48`, `dt <= 255`. (That every cell is 0 or 1 and
that `fault` is 0, 1 or 2 is said by their types.) -/
structure Machine.State.Inv (s : State) : Prop where
  sp_le : s.sp.toNat ≤ Config.stackDepth
  dt_le : s.dt.toNat ≤ 255
  mem_wf : s.mem.wf = true

/-- A session the host can bring about from `reset` by moves the spec gives a meaning (R243, R244). -/
inductive Machine.Session.Reachable : Session → Prop where
  | start : Reachable Session.start
  | move {a b : Session} {m : Move} {r : Reply} (h : Reachable a) (hm : a.move m = some (b, r)) : Reachable b

/-- A safe state: the core is not halted. R216: "a faulted state is never a final state of a correct program". -/
def Machine.State.Safe (s : State) : Prop := s.fault = .none

end Sys2Proof
end

