-- ==== Sys2Proof/Certificates/Slice0/Obligations.lean ====
section
/-! DEFINITION. The statements for the provers, with the few predicates they are written in. -/

/-! ### Predicates the statements use -/

namespace Sys2Proof.Claims

open Sys2Proof Sys2Proof.Machine

/-- Every word `op` with `op & mask = value` decodes to `f op`: a row of the opcode map with its operand fields (R61, R63). -/
def Selects (mask value : Word) (f : Word → Instr) : Prop :=
  ∀ op : Word, op &&& mask = value → decode op = .instr (f op)

/-- `exec i s` answers a next state that differs from `s` in the registers `V`, which are `f`, and in `pc`, which is `pc + 2`:
the result, the frame and the completion of an instruction of the register group at once. -/
def WritesV (i : Instr) (s : State) (f : Nibble → Byte) : Prop :=
  ∃ t, exec i s = .next t ∧ t = { s with v := t.v, pc := s.pc + 2 } ∧ ∀ r, t.getV r = f r

/-- R21: `if dt != 0 then dt <- dt - 1`, and nothing else. -/
def ticked (s : State) : State := { s with dt := if s.dt = 0 then 0 else s.dt - 1 }

/-- Bit `j` from the left of sprite row `i` of a `Dxyn` from state `s` is 1 (R171). -/
def SpriteBit (s : State) (n : Nibble) (i j : Nat) : Prop :=
  i < n.toNat ∧ j < 8 ∧ (memRead s.mem (s.index.toNat + i)).getLsbD (7 - j) = true

/-- The flat index of R171, reduced as R52 says. -/
def spriteCell (s : State) (x y : Nibble) (i j : Nat) : Nat :=
  (64 * ((s.getV y).toNat + i) + ((s.getV x).toNat + j)) % 2048

/-- The value of R15 for `pc` after each instruction that does not fault. -/
def nextPc (s : State) : Instr → Word
  | .jp nnn => nnn.setWidth 16
  | .call nnn => nnn.setWidth 16
  | .jpV0 nnn => nnn.setWidth 16 + (s.getV 0).setWidth 16
  | .ret => s.stack.toList.getD (s.sp.toNat - 1) 0 + 2
  | .seImm x nn => if s.getV x = nn then s.pc + 4 else s.pc + 2
  | .sneImm x nn => if s.getV x ≠ nn then s.pc + 4 else s.pc + 2
  | .seReg x y => if s.getV x = s.getV y then s.pc + 4 else s.pc + 2
  | .sneReg x y => if s.getV x ≠ s.getV y then s.pc + 4 else s.pc + 2
  | .skp x => if s.keys[Fin.ofNat 16 (s.getV x).toNat] = true then s.pc + 4 else s.pc + 2
  | .sknp x => if s.keys[Fin.ofNat 16 (s.getV x).toNat] = false then s.pc + 4 else s.pc + 2
  | .ldVxK _ => if ∃ k : Fin 16, s.keys[k] = true then s.pc + 2 else s.pc
  | _ => s.pc + 2

/-- The registers each instruction may write: R10's table, the implicit writes of `VF` included. -/
def MayWrite (i : Instr) (r : Nibble) : Prop :=
  match i with
  | .ldImm x _ | .addImm x _ | .ldReg x _ | .orReg x _ | .andReg x _ | .xorReg x _ | .rnd x _ | .ldVxDt x | .ldVxK x => r = x
  | .addReg x _ | .subReg x _ | .subnReg x _ | .shr x | .shl x => r = x ∨ r = 0xF
  | .drw _ _ _ => r = 0xF
  | .loadRegs x => r.toNat ≤ x.toNat
  | _ => False

/-- The six instructions that write `VF` as a flag (R11). -/
def WritesFlag : Instr → Prop
  | .addReg _ _ | .subReg _ _ | .subnReg _ _ | .shr _ | .shl _ | .drw _ _ _ => True
  | _ => False

/-- The reset values of R32, field by field. -/
def IsReset (s : State) : Prop :=
  (∀ r, s.getV r = 0) ∧ s.index = 0 ∧ s.pc = 512 ∧ s.sp = 0 ∧ (∀ k : Fin 48, s.stack[k] = 0) ∧ s.dt = 0 ∧
  (∀ k : Fin 16, s.keys[k] = false) ∧ (∀ i, fbRead s.fb i = false) ∧ s.drawFlag = false ∧ faultCode s.fault = 0 ∧
  (∀ a, a < 80 → memRead s.mem a = Config.fontset a) ∧ (∀ a, 80 ≤ a → a < 4096 → memRead s.mem a = 0)

end Sys2Proof.Claims

open Sys2Proof Sys2Proof.Machine Sys2Proof.Claims

/-! ### The step, the fetch and the decoder -/

/-- R33, whole: a halted core does nothing; otherwise the word at `pc` is fetched and decoded, its rule is run, and the tick
follows unless the rule raised a fault. This is the statement through which every statement about `exec` reaches a run. -/
def Obligations.StepRunsTheDecodedInstruction : Prop :=
  ∀ s : State,
    (s.fault ≠ .none → step s = .next s) ∧
    (∀ i, s.fault = .none → decode (memRead s.mem s.pc.toNat ++ memRead s.mem (s.pc + 1).toNat) = .instr i →
      i.wellFormed = true ∧
      (∀ u, exec i s = .next u → u.fault = .none → step s = .next (ticked u)) ∧
      (∀ u, exec i s = .next u → u.fault ≠ .none → step s = .next u) ∧
      (∀ r, exec i s = .fault r → step s = .fault r) ∧
      (∀ r, exec i s = .refused r → step s = .refused r)) ∧
    (∀ g, s.fault = .none → decode (memRead s.mem s.pc.toNat ++ memRead s.mem (s.pc + 1).toNat) = .unknown g →
      step s = .next (ticked { s with pc := s.pc + 2 }))

/-- R44: the byte at `pc` is the high byte and the byte at `pc + 1` the low byte, each address reduced mod 4096 on its own. -/
def Obligations.FetchIsBigEndianModulo4096 : Prop :=
  ∀ s : State,
    s.fetch = memGet s.mem (s.pc.toNat % 4096) ++ memGet s.mem ((s.pc.toNat + 1) % 4096) ∧
    s.fetched = decode s.fetch

/-- R50: a store is seen by the next fetch: a block store whose first two bytes fall on the next instruction's changes what
is executed next. -/
def Obligations.StoreIsSeenByTheNextFetch : Prop :=
  ∀ (x : Nibble) (s : State), s.mem.wf = true → x ≠ 0 → s.index.toNat % 4096 = (s.pc.toNat + 2) % 4096 →
    ∃ t, exec (.storeRegs x) s = .next t ∧ t.fetch = s.getV 0 ++ s.getV 1 ∧
      (s.fault = .none → s.fetched = .instr (.storeRegs x) → ∃ u, step s = .next u ∧ u.fetch = s.getV 0 ++ s.getV 1)

/-- R73 with R61 and R63: no operand bit of any instruction is dropped, as a word and as the two bytes memory holds. -/
def Obligations.DecodeOfEncodeIsTheInstruction : Prop :=
  ∀ i : Instr, i.wellFormed = true →
    decode (encode i) = .instr i ∧ decodeBytes (highByte (encode i)) (lowByte (encode i)) = .instr i

/-- R63: the decoder selects exactly the row of the opcode map a word matches; no two rows match one word. -/
def Obligations.DecoderFollowsTheOpcodeMap : Prop :=
  (∀ op i, decode op = .instr i → rowOf i ∈ opcodeMap ∧ op &&& (rowOf i).mask = (rowOf i).value) ∧
  (∀ op r, r ∈ opcodeMap → op &&& r.mask = r.value → ∃ i, decode op = .instr i ∧ rowOf i = r) ∧
  (∀ op r r', r ∈ opcodeMap → r' ∈ opcodeMap → op &&& r.mask = r.value → op &&& r'.mask = r'.value → r = r') ∧
  opcodeMap.length = 34

/-- R69's table: the unknown opcodes are exactly these words. -/
def Obligations.UnknownOpcodesAreThoseOfTheTable : Prop :=
  ∀ op : Word, (∃ g, decode op = .unknown g) ↔
    let top := op.toNat / 4096
    let low := op.toNat % 16
    let byte := op.toNat % 256
    (top = 0 ∧ low ≠ 0 ∧ low ≠ 14) ∨
    (top = 8 ∧ 8 ≤ low ∧ low ≠ 14) ∨
    (top = 14 ∧ byte ≠ 0x9E ∧ byte ≠ 0xA1) ∨
    (top = 15 ∧ byte ∉ [0x07, 0x0A, 0x15, 0x18, 0x1E, 0x29, 0x33, 0x55, 0x65])

/-- R70: the ignored bits take part neither in decode nor in the operation. -/
def Obligations.IgnoredBitsChangeNothing : Prop :=
  (∀ op : Word, op.toNat / 4096 = 0 → decode op = decode (op &&& 0xF00F#16)) ∧
  (∀ op : Word, op.toNat / 4096 = 5 ∨ op.toNat / 4096 = 9 → decode op = decode (op &&& 0xFFF0#16)) ∧
  (∀ op : Word, op.toNat / 4096 = 8 → op.toNat % 16 = 6 ∨ op.toNat % 16 = 14 → decode op = decode (op &&& 0xFF0F#16)) ∧
  (∀ x x' s, exec (.ldStVx x) s = exec (.ldStVx x') s)

/-- A few words written out from the spec's encodings decode to the instructions they stand for (spec/95_test_vectors.md
section 2.1 and the examples of the rules). -/
def Obligations.SpecWordsDecodeAsTheSpecSays : Prop :=
  decode 0x0000#16 = .instr .cls ∧ decode 0x0FF0#16 = .instr .cls ∧ decode 0x0A3E#16 = .instr .ret ∧
  decode 0x2204#16 = .instr (.call 0x204) ∧ decode 0x512F#16 = .instr (.seReg 1 2) ∧
  decode 0x6005#16 = .instr (.ldImm 0 5) ∧ decode 0x8126#16 = .instr (.shr 1) ∧
  decode 0xD01F#16 = .instr (.drw 0 1 15) ∧ decode 0xE19E#16 = .instr (.skp 1) ∧
  decode 0xF165#16 = .instr (.loadRegs 1) ∧ decode 0x8008#16 = .unknown .group8 ∧ decode 0xE1EE#16 = .unknown .groupE ∧
  decode 0x00EF#16 = .unknown .group0 ∧ decode 0xF175#16 = .unknown .groupF

/-! ### Control transfer (40_flow.md) -/

/-- R100, whole: the encoding, the pop, and the underflow that changes nothing but `fault`. -/
def Obligations.ReturnPopsAndAddsTwo : Prop :=
  Selects 0xF00F 0x000E (fun _ => .ret) ∧
  (∀ (s : State) (k : Fin 48), s.sp.toNat = k.val + 1 →
    ∃ t, exec .ret s = .next t ∧ t.sp.toNat = k.val ∧ t = { s with sp := t.sp, pc := s.stack[k] + 2 }) ∧
  (∀ s : State, s.sp = 0 → exec .ret s = .next { s with fault := .stackUnderflow })

/-- The model's own stop (log entry 5): with `sp` above 48, which the spec calls unreachable, `00EE` would read an entry that
does not exist, and the model faults. -/
def Obligations.ReturnBeyondTheStackStops : Prop :=
  ∀ s : State, 48 < s.sp.toNat → exec .ret s = .fault .noStackEntry

/-- R101, whole: the encoding, the jump, and that a jump to its own address leaves only the tick. -/
def Obligations.JumpLoadsTheTarget : Prop :=
  Selects 0xF000 0x1000 (fun op => .jp (op.extractLsb' 0 12)) ∧
  (∀ (nnn : Addr) (s : State), exec (.jp nnn) s = .next { s with pc := nnn.setWidth 16 }) ∧
  (∀ (nnn : Addr) (s : State), s.fault = .none → s.fetched = .instr (.jp nnn) → s.pc = nnn.setWidth 16 →
    step s = .next (ticked s))

/-- R102, whole: the encoding, the push of the call's own address, and the overflow that changes nothing but `fault`. -/
def Obligations.CallPushesItsOwnAddress : Prop :=
  Selects 0xF000 0x2000 (fun op => .call (op.extractLsb' 0 12)) ∧
  (∀ (nnn : Addr) (s : State) (k : Fin 48), s.sp.toNat = k.val →
    ∃ t, exec (.call nnn) s = .next t ∧ t.sp.toNat = k.val + 1 ∧ t.stack[k] = s.pc ∧
      (∀ j : Fin 48, j ≠ k → t.stack[j] = s.stack[j]) ∧
      t = { s with stack := t.stack, sp := t.sp, pc := nnn.setWidth 16 }) ∧
  (∀ (nnn : Addr) (s : State), s.sp.toNat = 48 → exec (.call nnn) s = .next { s with fault := .stackOverflow })

/-- R108: a call and the return that meets it resume at the instruction after the call, with the stack pointer as it was. -/
def Obligations.CallThenReturnResumesAfterTheCall : Prop :=
  ∀ (nnn : Addr) (s : State), s.sp.toNat < 48 →
    ∃ t, exec (.call nnn) s = .next t ∧ ∀ u : State, u.sp = t.sp → u.stack = t.stack →
      ∃ w, exec .ret u = .next w ∧ w.pc = s.pc + 2 ∧ w.sp = s.sp ∧ w = { u with sp := w.sp, pc := w.pc }

/-- R107, whole: `nnn + V0` without reduction to 12 bits; no wrap occurs. -/
def Obligations.IndexedJumpAddsV0 : Prop :=
  Selects 0xF000 0xB000 (fun op => .jpV0 (op.extractLsb' 0 12)) ∧
  ∀ (nnn : Addr) (s : State),
    ∃ t, exec (.jpV0 nnn) s = .next t ∧ t = { s with pc := t.pc } ∧ t.pc.toNat = nnn.toNat + (s.getV 0).toNat

/-- R103 and R104, whole: the two skips on an immediate; nothing but `pc` changes. -/
def Obligations.SkipOnImmediate : Prop :=
  Selects 0xF000 0x3000 (fun op => .seImm (op.extractLsb' 8 4) (op.extractLsb' 0 8)) ∧
  Selects 0xF000 0x4000 (fun op => .sneImm (op.extractLsb' 8 4) (op.extractLsb' 0 8)) ∧
  ∀ (x : Nibble) (nn : Byte) (s : State),
    exec (.seImm x nn) s = .next { s with pc := if s.getV x = nn then s.pc + 4 else s.pc + 2 } ∧
    exec (.sneImm x nn) s = .next { s with pc := if s.getV x ≠ nn then s.pc + 4 else s.pc + 2 }

/-- R105 and R106, whole: the two skips on registers; bits 3:0 of the word are ignored; nothing but `pc` changes. -/
def Obligations.SkipOnRegisters : Prop :=
  Selects 0xF000 0x5000 (fun op => .seReg (op.extractLsb' 8 4) (op.extractLsb' 4 4)) ∧
  Selects 0xF000 0x9000 (fun op => .sneReg (op.extractLsb' 8 4) (op.extractLsb' 4 4)) ∧
  ∀ (x y : Nibble) (s : State),
    exec (.seReg x y) s = .next { s with pc := if s.getV x = s.getV y then s.pc + 4 else s.pc + 2 } ∧
    exec (.sneReg x y) s = .next { s with pc := if s.getV x ≠ s.getV y then s.pc + 4 else s.pc + 2 }

/-! ### The ALU (41_alu.md) -/

/-- R120 and R121, whole: load and add immediate; the sum is mod 256 and no flag is written. -/
def Obligations.LoadAndAddImmediate : Prop :=
  Selects 0xF000 0x6000 (fun op => .ldImm (op.extractLsb' 8 4) (op.extractLsb' 0 8)) ∧
  Selects 0xF000 0x7000 (fun op => .addImm (op.extractLsb' 8 4) (op.extractLsb' 0 8)) ∧
  ∀ (x : Nibble) (nn : Byte) (s : State),
    WritesV (.ldImm x nn) s (fun r => if r = x then nn else s.getV r) ∧
    WritesV (.addImm x nn) s (fun r => if r = x then BitVec.ofNat 8 (((s.getV x).toNat + nn.toNat) % 256) else s.getV r)

/-- R122 to R125, whole: copy and the bitwise operations, bit by bit; `VF` is not changed unless it is `V[x]`. -/
def Obligations.CopyAndBitwiseOperations : Prop :=
  Selects 0xF00F 0x8000 (fun op => .ldReg (op.extractLsb' 8 4) (op.extractLsb' 4 4)) ∧
  Selects 0xF00F 0x8001 (fun op => .orReg (op.extractLsb' 8 4) (op.extractLsb' 4 4)) ∧
  Selects 0xF00F 0x8002 (fun op => .andReg (op.extractLsb' 8 4) (op.extractLsb' 4 4)) ∧
  Selects 0xF00F 0x8003 (fun op => .xorReg (op.extractLsb' 8 4) (op.extractLsb' 4 4)) ∧
  ∀ (x y : Nibble) (s : State),
    WritesV (.ldReg x y) s (fun r => if r = x then s.getV y else s.getV r) ∧
    (∃ f, WritesV (.orReg x y) s f ∧ (∀ r, r ≠ x → f r = s.getV r) ∧
      ∀ i, i < 8 → (f x).getLsbD i = ((s.getV x).getLsbD i || (s.getV y).getLsbD i)) ∧
    (∃ f, WritesV (.andReg x y) s f ∧ (∀ r, r ≠ x → f r = s.getV r) ∧
      ∀ i, i < 8 → (f x).getLsbD i = ((s.getV x).getLsbD i && (s.getV y).getLsbD i)) ∧
    (∃ f, WritesV (.xorReg x y) s f ∧ (∀ r, r ≠ x → f r = s.getV r) ∧
      ∀ i, i < 8 → (f x).getLsbD i = ((s.getV x).getLsbD i != (s.getV y).getLsbD i))

/-- R126, whole: the sum mod 256, then the carry in `VF`, which wins when `x = F` (R12). -/
def Obligations.AddSetsCarry : Prop :=
  Selects 0xF00F 0x8004 (fun op => .addReg (op.extractLsb' 8 4) (op.extractLsb' 4 4)) ∧
  ∀ (x y : Nibble) (s : State),
    WritesV (.addReg x y) s (fun r =>
      if r = 0xF then (if (s.getV x).toNat + (s.getV y).toNat > 255 then 1 else 0)
      else if r = x then BitVec.ofNat 8 (((s.getV x).toNat + (s.getV y).toNat) % 256) else s.getV r)

/-- R127 and R129, whole: both subtractions mod 256, then "no borrow" in `VF`, which wins when `x = F` (R12). -/
def Obligations.SubtractSetsNoBorrow : Prop :=
  Selects 0xF00F 0x8005 (fun op => .subReg (op.extractLsb' 8 4) (op.extractLsb' 4 4)) ∧
  Selects 0xF00F 0x8007 (fun op => .subnReg (op.extractLsb' 8 4) (op.extractLsb' 4 4)) ∧
  ∀ (x y : Nibble) (s : State),
    WritesV (.subReg x y) s (fun r =>
      if r = 0xF then (if (s.getV x).toNat ≥ (s.getV y).toNat then 1 else 0)
      else if r = x then BitVec.ofNat 8 (((s.getV x).toNat + 256 - (s.getV y).toNat) % 256) else s.getV r) ∧
    WritesV (.subnReg x y) s (fun r =>
      if r = 0xF then (if (s.getV y).toNat ≥ (s.getV x).toNat then 1 else 0)
      else if r = x then BitVec.ofNat 8 (((s.getV y).toNat + 256 - (s.getV x).toNat) % 256) else s.getV r)

/-- R128 and R130, whole: `V[x]` shifted in place whatever the `y` field holds, then the bit shifted out in `VF`, which wins
when `x = F` (R12). -/
def Obligations.ShiftsMoveOneBitIntoVF : Prop :=
  Selects 0xF00F 0x8006 (fun op => .shr (op.extractLsb' 8 4)) ∧
  Selects 0xF00F 0x800E (fun op => .shl (op.extractLsb' 8 4)) ∧
  ∀ (x : Nibble) (s : State),
    WritesV (.shr x) s (fun r =>
      if r = 0xF then BitVec.ofNat 8 ((s.getV x).toNat % 2)
      else if r = x then BitVec.ofNat 8 ((s.getV x).toNat / 2) else s.getV r) ∧
    WritesV (.shl x) s (fun r =>
      if r = 0xF then BitVec.ofNat 8 ((s.getV x).toNat / 128)
      else if r = x then BitVec.ofNat 8 ((s.getV x).toNat * 2 % 256) else s.getV r)

/-- R131, whole: `V[x]` is some byte masked by `nn`; which byte is left open (the model's free value, log entry 1). The model's
own counter `draws` is the only other field that may change. -/
def Obligations.RandomIsMaskedByTheImmediate : Prop :=
  Selects 0xF000 0xC000 (fun op => .rnd (op.extractLsb' 8 4) (op.extractLsb' 0 8)) ∧
  ∀ (x : Nibble) (nn : Byte) (s : State),
    ∃ t random, exec (.rnd x nn) s = .next t ∧ t = { s with v := t.v, pc := s.pc + 2, draws := t.draws } ∧
      (∀ r, t.getV r = if r = x then random &&& nn else s.getV r) ∧
      (∀ i, nn.getLsbD i = false → (t.getV x).getLsbD i = false)

/-! ### Index register and memory (42_index_memory.md) -/

/-- R150 to R152, whole: the three instructions that write `I`; no flag, nothing else changes. -/
def Obligations.IndexRegisterInstructions : Prop :=
  Selects 0xF000 0xA000 (fun op => .ldI (op.extractLsb' 0 12)) ∧
  Selects 0xF0FF 0xF01E (fun op => .addI (op.extractLsb' 8 4)) ∧
  Selects 0xF0FF 0xF029 (fun op => .ldF (op.extractLsb' 8 4)) ∧
  ∀ s : State,
    (∀ nnn : Addr, exec (.ldI nnn) s = .next { s with index := BitVec.ofNat 16 nnn.toNat, pc := s.pc + 2 }) ∧
    (∀ x : Nibble, exec (.addI x) s =
      .next { s with index := BitVec.ofNat 16 ((s.index.toNat + (s.getV x).toNat) % 65536), pc := s.pc + 2 }) ∧
    (∀ x : Nibble, exec (.ldF x) s = .next { s with index := BitVec.ofNat 16 ((s.getV x).toNat * 5), pc := s.pc + 2 })

/-- R153, whole: the three digits at `I`, `I + 1`, `I + 2`, every other byte of memory and everything else unchanged. -/
def Obligations.BcdStoresThreeDigits : Prop :=
  Selects 0xF0FF 0xF033 (fun op => .ldB (op.extractLsb' 8 4)) ∧
  ∀ (x : Nibble) (s : State),
    ∃ t, exec (.ldB x) s = .next t ∧ t = { s with mem := t.mem, pc := s.pc + 2 } ∧
      (s.mem.wf = true →
        (memRead t.mem s.index.toNat).toNat = (s.getV x).toNat / 100 ∧
        (memRead t.mem (s.index.toNat + 1)).toNat = (s.getV x).toNat / 10 % 10 ∧
        (memRead t.mem (s.index.toNat + 2)).toNat = (s.getV x).toNat % 10 ∧
        ∀ a, (∀ k, k < 3 → a % 4096 ≠ (s.index.toNat + k) % 4096) → memRead t.mem a = memRead s.mem a)

/-- R154, whole: `V[k]` at `I + k` for `k` from 0 to `x`, every other byte of memory and everything else unchanged. -/
def Obligations.BlockStoreWritesV0ToVx : Prop :=
  Selects 0xF0FF 0xF055 (fun op => .storeRegs (op.extractLsb' 8 4)) ∧
  ∀ (x : Nibble) (s : State),
    ∃ t, exec (.storeRegs x) s = .next t ∧ t = { s with mem := t.mem, pc := s.pc + 2 } ∧
      (s.mem.wf = true →
        (∀ k : Nibble, k.toNat ≤ x.toNat → memRead t.mem (s.index.toNat + k.toNat) = s.getV k) ∧
        ∀ a, (∀ k, k ≤ x.toNat → a % 4096 ≠ (s.index.toNat + k) % 4096) → memRead t.mem a = memRead s.mem a)

/-- R155, whole: `V[k]` receives the byte at `I + k` for `k` from 0 to `x`; memory, `I` and the other registers unchanged. -/
def Obligations.BlockLoadReadsV0ToVx : Prop :=
  Selects 0xF0FF 0xF065 (fun op => .loadRegs (op.extractLsb' 8 4)) ∧
  ∀ (x : Nibble) (s : State),
    WritesV (.loadRegs x) s (fun r =>
      if r.toNat ≤ x.toNat then memRead s.mem (s.index.toNat + r.toNat) else s.getV r)

/-! ### Display (43_display.md) -/

/-- R170, whole: every cell 0, `draw_flag` set, no register changed. -/
def Obligations.ClearScreenClearsEveryCell : Prop :=
  Selects 0xF00F 0x0000 (fun _ => .cls) ∧
  ∀ s : State, ∃ t, exec .cls s = .next t ∧ t = { s with fb := t.fb, drawFlag := true, pc := s.pc + 2 } ∧
    ∀ idx, fbRead t.fb idx = false

/-- R171, whole: the loop's effect in closed form. A cell changes exactly when a sprite bit of 1 falls on it, `VF` is 1 exactly
when such a bit met a cell that was 1, and nothing else changes but `draw_flag` and `pc`. The sprite is read, and the
coordinates are taken, from the state before the instruction, also when `x` or `y` is `F`. -/
def Obligations.DrawTogglesTheSpriteCells : Prop :=
  Selects 0xF000 0xD000 (fun op => .drw (op.extractLsb' 8 4) (op.extractLsb' 4 4) (op.extractLsb' 0 4)) ∧
  ∀ (x y n : Nibble) (s : State),
    ∃ t, exec (.drw x y n) s = .next t ∧
      t = { s with v := t.v, fb := t.fb, drawFlag := true, pc := s.pc + 2 } ∧
      (∀ c, c < 2048 → (fbRead t.fb c ≠ fbRead s.fb c ↔ ∃ i j, SpriteBit s n i j ∧ spriteCell s x y i j = c)) ∧
      (t.getV 0xF = 0 ∨ t.getV 0xF = 1) ∧
      (t.getV 0xF = 1 ↔ ∃ i j, SpriteBit s n i j ∧ fbRead s.fb (spriteCell s x y i j) = true) ∧
      ∀ r, r ≠ 0xF → t.getV r = s.getV r

/-- R172, whole: `VF` is 1 exactly when a set cell was toggled off; drawing the same sprite at the same place again restores
the framebuffer; the cells of one draw are pairwise distinct. -/
def Obligations.DrawCollisionAndSelfInverse : Prop :=
  (∀ (x y n : Nibble) (s t : State), exec (.drw x y n) s = .next t →
    (t.getV 0xF = 1 ↔ ∃ c, c < 2048 ∧ fbRead s.fb c = true ∧ fbRead t.fb c = false) ∧
    ∀ w : State, w.fb = t.fb → w.index = s.index → w.getV x = s.getV x → w.getV y = s.getV y →
      (∀ a, memRead w.mem a = memRead s.mem a) → ∃ u, exec (.drw x y n) w = .next u ∧ u.fb = s.fb) ∧
  (∀ (x y n : Nibble) (s t : State), x ≠ 0xF → y ≠ 0xF → exec (.drw x y n) s = .next t →
    ∃ u, exec (.drw x y n) t = .next u ∧ u.fb = s.fb) ∧
  (∀ (x y : Nibble) (s : State) (i j i' j' : Nat), i < 15 → j < 8 → i' < 15 → j' < 8 →
    spriteCell s x y i j = spriteCell s x y i' j' → i = i' ∧ j = j')

/-! ### Keys and timer (44_keys_timer.md) -/

/-- R190 and R191, whole: the key tested is the low 4 bits of `V[x]`; nothing but `pc` changes. -/
def Obligations.SkipOnKey : Prop :=
  Selects 0xF0FF 0xE09E (fun op => .skp (op.extractLsb' 8 4)) ∧
  Selects 0xF0FF 0xE0A1 (fun op => .sknp (op.extractLsb' 8 4)) ∧
  ∀ (x : Nibble) (s : State),
    exec (.skp x) s =
      .next { s with pc := if s.keys[Fin.ofNat 16 (s.getV x).toNat] = true then s.pc + 4 else s.pc + 2 } ∧
    exec (.sknp x) s =
      .next { s with pc := if s.keys[Fin.ofNat 16 (s.getV x).toNat] = false then s.pc + 4 else s.pc + 2 }

/-- R193, whole: the highest pressed key to `V[x]`; with none pressed nothing changes, `pc` included; the step's tick follows in
both cases. -/
def Obligations.WaitForKeyTakesTheHighest : Prop :=
  Selects 0xF0FF 0xF00A (fun op => .ldVxK (op.extractLsb' 8 4)) ∧
  ∀ (x : Nibble) (s : State),
    (∀ k : Fin 16, s.keys[k] = true → (∀ j : Fin 16, k < j → s.keys[j] = false) →
      WritesV (.ldVxK x) s (fun r => if r = x then BitVec.ofNat 8 k.val else s.getV r)) ∧
    ((∀ k : Fin 16, s.keys[k] = false) → exec (.ldVxK x) s = .next s) ∧
    (s.fault = .none → s.fetched = .instr (.ldVxK x) →
      ∃ t, exec (.ldVxK x) s = .next t ∧ step s = .next (ticked t))

/-- R192, whole: the low 8 bits of the timer as it was before the step's tick; the copy is exact where the invariant holds. -/
def Obligations.ReadTimerBeforeTheTick : Prop :=
  Selects 0xF0FF 0xF007 (fun op => .ldVxDt (op.extractLsb' 8 4)) ∧
  ∀ (x : Nibble) (s : State),
    WritesV (.ldVxDt x) s (fun r => if r = x then BitVec.ofNat 8 (s.dt.toNat % 256) else s.getV r) ∧
    (s.Inv → (BitVec.ofNat 8 (s.dt.toNat % 256) : Byte).toNat = s.dt.toNat) ∧
    (s.fault = .none → s.fetched = .instr (.ldVxDt x) →
      ∃ t, step s = .next t ∧ t.getV x = BitVec.ofNat 8 (s.dt.toNat % 256) ∧ t.dt.toNat = s.dt.toNat - 1)

/-- R194, whole: the timer is loaded, and the step's tick has already lowered it when the step ends. -/
def Obligations.SetTimerIsTickedAtOnce : Prop :=
  Selects 0xF0FF 0xF015 (fun op => .ldDtVx (op.extractLsb' 8 4)) ∧
  ∀ (x : Nibble) (s : State),
    exec (.ldDtVx x) s = .next { s with dt := BitVec.ofNat 16 (s.getV x).toNat, pc := s.pc + 2 } ∧
    (s.fault = .none → s.fetched = .instr (.ldDtVx x) →
      ∃ t, step s = .next t ∧ t.dt.toNat = (s.getV x).toNat - 1 ∧ t = { s with dt := t.dt, pc := s.pc + 2 })

/-- R195, whole: `Fx18` only advances `pc`, and emits no report. -/
def Obligations.SoundTimerLoadIsNoOperation : Prop :=
  Selects 0xF0FF 0xF018 (fun op => .ldStVx (op.extractLsb' 8 4)) ∧
  ∀ (x : Nibble) (s : State), exec (.ldStVx x) s = .next { s with pc := s.pc + 2 } ∧
    (s.fetched = .instr (.ldStVx x) → s.report = none)

/-! ### Exceptional conditions (60_exceptions.md) -/

/-- R211, whole: an unknown opcode is reported with its word, moves `pc` by 2, ticks, and changes nothing else; no other step
reports anything. -/
def Obligations.UnknownOpcodeIsReportedAndSkipped : Prop :=
  (∀ (s : State) (g : UnknownGroup), s.fault = .none → decode s.fetch = .unknown g →
    s.report = some s.fetch ∧ step s = .next (ticked { s with pc := s.pc + 2 })) ∧
  (∀ (s : State) (op : Word), s.report = some op → s.fault = .none ∧ s.fetch = op ∧ ∃ g, decode op = .unknown g)

/-- R216, whole: a step that raises a fault changes `fault` and nothing else, and from then on no step changes anything or
reports anything. -/
def Obligations.FaultChangesOnlyTheFaultRegister : Prop :=
  (∀ s t : State, s.fault = .none → step s = .next t → t.fault ≠ .none → t = { s with fault := t.fault }) ∧
  (∀ s : State, s.fault ≠ .none → s.report = none ∧ ∀ k, core.run k s = .next s)

/-- R212, R213, R215: a step raises `StackUnderflow` exactly on `00EE` with `sp = 0` and `StackOverflow` exactly on `2nnn` with
`sp = 48`, in the states with `sp` at most 48 (the others no run reaches). -/
def Obligations.FaultsAreTheTwoOfTheStack : Prop :=
  ∀ s : State, s.fault = .none → s.sp.toNat ≤ 48 →
    ((∃ t, step s = .next t ∧ faultCode t.fault = 1) ↔ s.fetched = .instr .ret ∧ s.sp = 0) ∧
    ((∃ t, step s = .next t ∧ faultCode t.fault = 2) ↔ (∃ nnn, s.fetched = .instr (.call nnn)) ∧ s.sp.toNat = 48) ∧
    (∀ t, step s = .next t → faultCode t.fault = 0 ∨ faultCode t.fault = 1 ∨ faultCode t.fault = 2)

/-- R217: the fault register is cleared by `reset` alone, which discards the whole machine state (R240), whatever else the host
does. -/
def Obligations.FaultIsClearedByResetAlone : Prop :=
  ∀ (a b : Session) (m : Move) (r : Reply), a.core.fault ≠ .none → a.move m = some (b, r) →
    (m = .reset → b.core.fault = .none ∧ IsReset b.core) ∧ (m ≠ .reset → b.core.fault = a.core.fault)

/-! ### Whole-machine rules (10_state.md) -/

/-- R15 with the table under it, which the spec marks "derived: from rules R100 to R107, R120 to R131, R150 to R155, R170, R171,
R190 to R195, R211": what each instruction, an unknown opcode, a faulting step and a halted step (R216) do to `pc`. The target
values are those of R100 to R102 and R107, the skip conditions those of R103 to R106, R190 and R191, the wait is R193's. -/
def Obligations.ProgramCounterRule : Prop :=
  (∀ (i : Instr) (s t : State), s.fault = .none → exec i s = .next t → t.fault = .none → t.pc = nextPc s i) ∧
  (∀ (s t : State) (g : UnknownGroup), s.fault = .none → s.fetched = .unknown g → step s = .next t → t.pc = s.pc + 2) ∧
  (∀ s t : State, step s = .next t → t.fault ≠ .none → t.pc = s.pc)

/-- R21, whole: the tick at the end of every step that does not fault, after the instruction's own effect on `dt`; none in a
faulting or halted step. -/
def Obligations.DelayTimerTicksOncePerStep : Prop :=
  ∀ s t : State, step s = .next t →
    (t.fault ≠ .none → t.dt = s.dt) ∧
    (t.fault = .none →
      (∀ x, s.fetched = .instr (.ldDtVx x) → t.dt.toNat = (s.getV x).toNat - 1) ∧
      ((∀ x, s.fetched ≠ .instr (.ldDtVx x)) → t.dt.toNat = s.dt.toNat - 1))

/-- R20, R21 and R246 over a run: while no step loads the timer and none faults, `k` steps lower it by `k`, down to 0. -/
def Obligations.DelayTimerCountsSteps : Prop :=
  ∀ (k : Nat) (s t : State), core.run k s = .next t → t.fault = .none →
    (∀ j u, j < k → core.run j s = .next u → ∀ x, Sys2Proof.Machine.State.fetched u ≠ .instr (.ldDtVx x)) →
    t.dt.toNat = s.dt.toNat - k

/-- R10's table: an instruction writes no register but those the table gives it. -/
def Obligations.RegistersWrittenAreThoseOfTheTable : Prop :=
  (∀ (i : Instr) (s t : State), exec i s = .next t → ∀ r, ¬ MayWrite i r → t.getV r = s.getV r) ∧
  (∀ (s t : State) (g : UnknownGroup), s.fetched = .unknown g → step s = .next t → ∀ r, t.getV r = s.getV r)

/-- R11: `VF` ends as 0 or 1 after each of the six flag instructions, also when it is their destination; every other
instruction leaves it unless it names it as a destination. -/
def Obligations.FlagIsWrittenBySixInstructions : Prop :=
  ∀ (i : Instr) (s t : State), exec i s = .next t →
    (WritesFlag i → t.getV 0xF = 0 ∨ t.getV 0xF = 1) ∧
    (¬ WritesFlag i → ¬ MayWrite i 0xF → t.getV 0xF = s.getV 0xF)

/-- R46 and R47: memory is written by `Fx33` and `Fx55` alone; after every other instruction every byte reads as before. -/
def Obligations.MemoryIsWrittenByTwoInstructions : Prop :=
  ∀ (i : Instr) (s t : State), exec i s = .next t →
    (∀ x, i ≠ .ldB x) → (∀ x, i ≠ .storeRegs x) → ∀ a, memRead t.mem a = memRead s.mem a

/-- R13, R17, R18, R20, R22, R23, R24, and R29 with R210: which instructions write `I`, the stack (R17), `sp`, `dt`, the framebuffer
and the draw flag; none writes the keys, and none clears the draw flag. The fault register is written only by a fault (R29), and
the two faults are those of `2nnn` and `00EE` (R210). -/
def Obligations.SpecialStateHasItsWriters : Prop :=
  ∀ (i : Instr) (s t : State), exec i s = .next t →
    ((∀ nnn, i ≠ .ldI nnn) → (∀ x, i ≠ .addI x) → (∀ x, i ≠ .ldF x) → t.index = s.index) ∧
    ((∀ nnn, i ≠ .call nnn) → t.stack = s.stack ∧ (i ≠ .ret → t.sp = s.sp)) ∧
    ((∀ x, i ≠ .ldDtVx x) → t.dt = s.dt) ∧
    (i ≠ .cls → (∀ x y n, i ≠ .drw x y n) → t.fb = s.fb ∧ t.drawFlag = s.drawFlag) ∧
    (i = .cls ∨ (∃ x y n, i = .drw x y n) → t.drawFlag = true) ∧
    ((∀ nnn, i ≠ .call nnn) → i ≠ .ret → t.fault = s.fault) ∧
    t.keys = s.keys

/-- R34 with the canonical form of the memory: `sp` at most 48, `dt` at most 255, memory canonical; every step keeps this, from
every state that has it. -/
def Obligations.EveryStepKeepsTheInvariant : Prop :=
  ∀ s t : State, s.Inv → step s = .next t → t.Inv

/-- The state after reset meets the invariant. -/
def Obligations.ResetMeetsTheInvariant : Prop := State.reset.Inv

/-- R34 over sessions: whatever moves the host makes in the order of R243, the invariant holds. The order is R243's as the model
takes it (log entry 8), and the canonical form of the memory is the model's (log entry 4). The step lemma under it is
`EveryHostMoveKeepsTheInvariant`. -/
def Obligations.EveryReachableSessionMeetsTheInvariant : Prop :=
  ∀ a : Session, a.Reachable → a.core.Inv

/-- R26, R43, R215: no step stops. In every state with `sp` at most 48 the step answers a next state, and a halted core
answers one with any `sp`. -/
def Obligations.EveryStepAnswersANextState : Prop :=
  ∀ s : State, s.sp.toNat ≤ 48 ∨ s.fault ≠ .none → ∃ t, core.step s = .next t

/-- R249: the states a further step cannot change are exactly the halted ones and those with `dt = 0` at a jump to itself, an
`Fx0A` with no key pressed, or a `Bnnn` with `nnn + V0 = pc`. -/
def Obligations.StatesNoStepCanChange : Prop :=
  ∀ s : State, step s = .next s ↔
    s.fault ≠ .none ∨
    (s.dt = 0 ∧
      ((∃ nnn : Addr, s.fetched = .instr (.jp nnn) ∧ nnn.toNat = s.pc.toNat) ∨
       (∃ x, s.fetched = .instr (.ldVxK x) ∧ ∀ k : Fin 16, s.keys[k] = false) ∨
       (∃ nnn : Addr, s.fetched = .instr (.jpV0 nnn) ∧ nnn.toNat + (s.getV 0).toNat = s.pc.toNat)))

/-! ### Reset, load and the host (70_reset_and_hazards.md) -/

/-- R32, whole: every value of the table, right after reset and after a `reset` command in any state. -/
def Obligations.ResetGivesTheTableOfValues : Prop :=
  IsReset State.reset ∧ ∀ s : State, IsReset s.resetCommand

/-- R241, whole: the ROM stands at 512 upward; no other byte and nothing else has changed. -/
def Obligations.LoadCopiesTheRom : Prop :=
  ∀ (s : State) (rom : List Byte), rom.length ≤ 3584 →
    ∃ t, s.load rom = .loaded t ∧ t = { s with mem := t.mem } ∧
      (s.mem.wf = true →
        (∀ (k : Nat) (h : k < rom.length), memRead t.mem (512 + k) = rom[k]) ∧
        ∀ a, a < 4096 → a < 512 ∨ 512 + rom.length ≤ a → memRead t.mem a = memRead s.mem a)

/-- R242 and R214: a longer ROM fails, and the session is the one before. -/
def Obligations.OversizeLoadLeavesTheCoreUnmodified : Prop :=
  ∀ (a : Session) (rom : List Byte), 3584 < rom.length → a.phase ≠ .running →
    a.core.load rom = .romTooLarge ∧ a.move (.load rom) = some (a, .romTooLarge)

/-- R243: the order reset, load, step. The model takes it strictly (log entry 8): no `step` before a `load`, no `load` after a
`step`, until `reset` starts over. -/
def Obligations.HostKeepsTheBootOrder : Prop :=
  Session.start.phase = .fresh ∧
  (∀ a : Session, a.phase = .fresh → a.move .step = none) ∧
  (∀ (a : Session) (rom : List Byte), a.phase = .running → a.move (.load rom) = none) ∧
  (∀ (a : Session) (rom : List Byte), a.phase ≠ .running → rom.length ≤ 3584 →
    ∃ b, a.move (.load rom) = some (b, .done) ∧ b.phase = .loaded) ∧
  (∀ (a : Session) (t : State), a.phase ≠ .fresh → step a.core = .next t →
    a.move .step = some (⟨t, .running⟩, .stepped a.core.report)) ∧
  (∀ a : Session, ∃ b, a.move .reset = some (b, .done) ∧ b.phase = .fresh ∧ IsReset b.core)

/-- R244 and R31: writing a key changes that key alone, consuming a frame clears the draw flag alone, and the frame is read
only while the flag is set. -/
def Obligations.HostMovesTouchKeysAndDrawFlagOnly : Prop :=
  (∀ (a : Session) (k : Nibble) (p : Bool), ∃ b, a.move (.writeKey k p) = some (b, .done) ∧ b.phase = a.phase ∧
    b.core = { a.core with keys := b.core.keys } ∧ ∀ q, b.core.key q = if q = k then p else a.core.key q) ∧
  (∀ a : Session, a.move .consumeFrame = some (⟨{ a.core with drawFlag := false }, a.phase⟩, .done)) ∧
  (∀ s : State, s.readFrame = if s.drawFlag = true then some s.fb else none)

/-! ### Ignored bits and host moves, stated for every word and every session -/

/-- R70, for every word and instruction. Words that differ in the ignored bits alone run the same operation; an assembler writes
these bits as 0, and as `E` in bits 7:4 of `00E0` and `00EE`; its word runs the instruction, and is the one canonical word among
those that decode to it. `Fx18` is the one instruction whose operand the assembler leaves out, and it does nothing with it. -/
def Obligations.AssemblerFillsTheIgnoredBits : Prop :=
  (∀ (op op' : Word) (i : Instr), decode op = .instr i → op &&& ~~~ignoredBits i = op' &&& ~~~ignoredBits i →
    ∃ j, decode op' = .instr j ∧ ∀ s, exec j s = exec i s) ∧
  (∀ i : Instr, assemble i &&& ignoredBits i = if i = .cls ∨ i = .ret then 0x00E0#16 else 0#16) ∧
  (∀ i : Instr, ∃ j, decode (assemble i) = .instr j ∧ (∀ s, exec j s = exec i s) ∧ ((∀ x, i ≠ .ldStVx x) → j = i)) ∧
  (∀ (op : Word) (i : Instr), decode op = .instr i → (wordCanonical op = true ↔ op = assemble i))

/-- R34 as a step lemma over the host's moves (R244): from every session whose core meets the invariant, reachable or not, every
move that answers leads to one whose core meets it. The moves that answer are those the model gives a meaning (log entry 8), and
the canonical form of the memory is the model's (log entry 4). -/
def Obligations.EveryHostMoveKeepsTheInvariant : Prop :=
  ∀ (a b : Session) (m : Move) (r : Reply), a.core.Inv → a.move m = some (b, r) → b.core.Inv
end

