-- ==== Sys2Proof/Laws/Decode.lean ====
section
/-! SUPPORT. The fields of a word (R61): of a masked word, of an encoded word (R73), and that the four nibbles determine it. -/

namespace Sys2Proof

/-- A word is its four nibbles. -/
theorem word_ext {a b : Word} (ht : topNibble a = topNibble b) (hx : fieldX a = fieldX b) (hy : fieldY a = fieldY b)
    (hn : fieldN a = fieldN b) : a = b := by
  apply BitVec.eq_of_getLsbD_eq
  intro i hi
  have bit : ∀ (k : Nat) (j : Nat), j < 4 → a.extractLsb' k 4 = b.extractLsb' k 4 → a.getLsbD (k + j) = b.getLsbD (k + j) := by
    intro k j hj e
    have := congrArg (fun w : BitVec 4 => w.getLsbD j) e
    simpa [BitVec.getLsbD_extractLsb', hj] using this
  rcases (by omega : i < 4 ∨ (4 ≤ i ∧ i < 8) ∨ (8 ≤ i ∧ i < 12) ∨ 12 ≤ i) with h | h | h | h
  · simpa using bit 0 i h hn
  · simpa [show 4 + (i - 4) = i by omega] using bit 4 (i - 4) (by omega) hy
  · simpa [show 8 + (i - 8) = i by omega] using bit 8 (i - 8) (by omega) hx
  · simpa [show 12 + (i - 12) = i by omega] using bit 12 (i - 12) (by omega) ht

@[simp] theorem topNibble_and (a b : Word) : topNibble (a &&& b) = topNibble a &&& topNibble b := by
  simp [topNibble, BitVec.extractLsb'_and]

@[simp] theorem fieldX_and (a b : Word) : fieldX (a &&& b) = fieldX a &&& fieldX b := by
  simp [fieldX, BitVec.extractLsb'_and]

@[simp] theorem fieldY_and (a b : Word) : fieldY (a &&& b) = fieldY a &&& fieldY b := by
  simp [fieldY, BitVec.extractLsb'_and]

@[simp] theorem fieldN_and (a b : Word) : fieldN (a &&& b) = fieldN a &&& fieldN b := by
  simp [fieldN, BitVec.extractLsb'_and]

/-- R61: `nn = y ++ n`. -/
theorem fieldNN_eq (op : Word) : fieldNN op = fieldY op ++ fieldN op := by
  apply BitVec.eq_of_getLsbD_eq
  intro i hi
  simp only [fieldNN, fieldY, fieldN, BitVec.getLsbD_append, BitVec.getLsbD_extractLsb']
  by_cases h : i < 4
  · simp [h, hi]
  · simp [h, hi, show i - 4 < 4 by omega, show 4 + (i - 4) = i by omega]

/-- R61: `nnn = x ++ y ++ n`. -/
theorem fieldNNN_eq (op : Word) : fieldNNN op = fieldX op ++ fieldY op ++ fieldN op := by
  apply BitVec.eq_of_getLsbD_eq
  intro i hi
  simp only [fieldNNN, fieldX, fieldY, fieldN, BitVec.getLsbD_append, BitVec.getLsbD_extractLsb']
  by_cases h : i < 4
  · simp [h, hi]
  · by_cases h8 : i < 8
    · simp [h, hi, show i - 4 < 4 by omega, show 4 + (i - 4) = i by omega]
    · simp [h, hi, show ¬ i - 4 < 4 by omega, show i - 4 - 4 < 4 by omega, show 8 + (i - 4 - 4) = i by omega]

/-- R61: the top nibble as a number. -/
theorem topNibble_toNat (op : Word) : (topNibble op).toNat = op.toNat / 4096 := by
  have := op.isLt
  simp [topNibble, BitVec.extractLsb'_toNat, Nat.shiftRight_eq_div_pow]
  omega

/-- R61: the bottom nibble as a number. -/
theorem fieldN_toNat (op : Word) : (fieldN op).toNat = op.toNat % 16 := by
  simp [fieldN, BitVec.extractLsb'_toNat]

/-- R61: the bottom byte as a number. -/
theorem fieldNN_toNat (op : Word) : (fieldNN op).toNat = op.toNat % 256 := by
  simp [fieldNN, BitVec.extractLsb'_toNat]

/-! The fields of an encoded word (R73). -/

section
variable (g x y n : Nibble) (nn : Byte) (nnn : Addr)

@[simp] theorem topNibble_encodeXYN : topNibble (encodeXYN g x y n) = g := by
  unfold topNibble encodeXYN
  apply BitVec.eq_of_getLsbD_eq
  intro i hi
  simp only [BitVec.getLsbD_append, BitVec.getLsbD_extractLsb']
  simp [hi, show ¬ 12 + i < 4 by omega, show ¬ 12 + i - 4 < 4 by omega, show ¬ 12 + i - 4 - 4 < 4 by omega,
    show 12 + i - 4 - 4 - 4 = i by omega]

@[simp] theorem fieldX_encodeXYN : fieldX (encodeXYN g x y n) = x := by
  unfold fieldX encodeXYN
  apply BitVec.eq_of_getLsbD_eq
  intro i hi
  simp only [BitVec.getLsbD_append, BitVec.getLsbD_extractLsb']
  simp [hi, show ¬ 8 + i < 4 by omega, show ¬ 8 + i - 4 < 4 by omega, show 8 + i - 4 - 4 = i by omega]

@[simp] theorem fieldY_encodeXYN : fieldY (encodeXYN g x y n) = y := by
  unfold fieldY encodeXYN
  apply BitVec.eq_of_getLsbD_eq
  intro i hi
  simp only [BitVec.getLsbD_append, BitVec.getLsbD_extractLsb']
  simp [hi, show ¬ 4 + i < 4 by omega, show 4 + i - 4 = i by omega]

@[simp] theorem fieldN_encodeXYN : fieldN (encodeXYN g x y n) = n := by
  unfold fieldN encodeXYN
  apply BitVec.eq_of_getLsbD_eq
  intro i hi
  simp only [BitVec.getLsbD_append, BitVec.getLsbD_extractLsb']
  simp [hi]

@[simp] theorem topNibble_encodeXI : topNibble (encodeXI g x nn) = g := by
  unfold topNibble encodeXI
  apply BitVec.eq_of_getLsbD_eq
  intro i hi
  simp only [BitVec.getLsbD_append, BitVec.getLsbD_extractLsb']
  simp [hi, show ¬ 12 + i < 8 by omega, show ¬ 12 + i - 8 < 4 by omega, show 12 + i - 8 - 4 = i by omega]

@[simp] theorem fieldX_encodeXI : fieldX (encodeXI g x nn) = x := by
  unfold fieldX encodeXI
  apply BitVec.eq_of_getLsbD_eq
  intro i hi
  simp only [BitVec.getLsbD_append, BitVec.getLsbD_extractLsb']
  simp [hi]

@[simp] theorem fieldY_encodeXI : fieldY (encodeXI g x nn) = nn.extractLsb' 4 4 := by
  unfold fieldY encodeXI
  apply BitVec.eq_of_getLsbD_eq
  intro i hi
  simp only [BitVec.getLsbD_append, BitVec.getLsbD_extractLsb']
  simp [hi, show 4 + i < 8 by omega]

@[simp] theorem fieldN_encodeXI : fieldN (encodeXI g x nn) = nn.extractLsb' 0 4 := by
  unfold fieldN encodeXI
  apply BitVec.eq_of_getLsbD_eq
  intro i hi
  simp only [BitVec.getLsbD_append, BitVec.getLsbD_extractLsb']
  simp [hi, show i < 8 by omega]

@[simp] theorem fieldNN_encodeXI : fieldNN (encodeXI g x nn) = nn := by
  unfold fieldNN encodeXI
  apply BitVec.eq_of_getLsbD_eq
  intro i hi
  simp only [BitVec.getLsbD_append, BitVec.getLsbD_extractLsb']
  simp [hi]

@[simp] theorem topNibble_encodeA : topNibble (encodeA g nnn) = g := by
  unfold topNibble encodeA
  apply BitVec.eq_of_getLsbD_eq
  intro i hi
  simp only [BitVec.getLsbD_append, BitVec.getLsbD_extractLsb']
  simp [hi]

@[simp] theorem fieldX_encodeA : fieldX (encodeA g nnn) = nnn.extractLsb' 8 4 := by
  unfold fieldX encodeA
  apply BitVec.eq_of_getLsbD_eq
  intro i hi
  simp only [BitVec.getLsbD_append, BitVec.getLsbD_extractLsb']
  simp [hi, show 8 + i < 12 by omega]

@[simp] theorem fieldY_encodeA : fieldY (encodeA g nnn) = nnn.extractLsb' 4 4 := by
  unfold fieldY encodeA
  apply BitVec.eq_of_getLsbD_eq
  intro i hi
  simp only [BitVec.getLsbD_append, BitVec.getLsbD_extractLsb']
  simp [hi, show 4 + i < 12 by omega]

@[simp] theorem fieldN_encodeA : fieldN (encodeA g nnn) = nnn.extractLsb' 0 4 := by
  unfold fieldN encodeA
  apply BitVec.eq_of_getLsbD_eq
  intro i hi
  simp only [BitVec.getLsbD_append, BitVec.getLsbD_extractLsb']
  simp [hi, show i < 12 by omega]

@[simp] theorem fieldNNN_encodeA : fieldNNN (encodeA g nnn) = nnn := by
  unfold fieldNNN encodeA
  apply BitVec.eq_of_getLsbD_eq
  intro i hi
  simp only [BitVec.getLsbD_append, BitVec.getLsbD_extractLsb']
  simp [hi]

end

/-! The three masks of the opcode map keep the top nibble, and the bottom nibble or byte. -/

theorem nibble_and_ones (a : Nibble) : a &&& 0xF#4 = a := BitVec.and_allOnes

theorem nibble_and_zero (a : Nibble) : a &&& 0#4 = 0#4 := BitVec.and_zero

theorem and_mask_F000 (op : Word) : op &&& 0xF000#16 = encodeXYN (topNibble op) 0#4 0#4 0#4 := by
  apply word_ext
  · rw [topNibble_and, topNibble_encodeXYN, show topNibble 0xF000#16 = 0xF#4 by decide, nibble_and_ones]
  · rw [fieldX_and, fieldX_encodeXYN, show fieldX 0xF000#16 = 0#4 by decide, nibble_and_zero]
  · rw [fieldY_and, fieldY_encodeXYN, show fieldY 0xF000#16 = 0#4 by decide, nibble_and_zero]
  · rw [fieldN_and, fieldN_encodeXYN, show fieldN 0xF000#16 = 0#4 by decide, nibble_and_zero]

theorem and_mask_F00F (op : Word) : op &&& 0xF00F#16 = encodeXYN (topNibble op) 0#4 0#4 (fieldN op) := by
  apply word_ext
  · rw [topNibble_and, topNibble_encodeXYN, show topNibble 0xF00F#16 = 0xF#4 by decide, nibble_and_ones]
  · rw [fieldX_and, fieldX_encodeXYN, show fieldX 0xF00F#16 = 0#4 by decide, nibble_and_zero]
  · rw [fieldY_and, fieldY_encodeXYN, show fieldY 0xF00F#16 = 0#4 by decide, nibble_and_zero]
  · rw [fieldN_and, fieldN_encodeXYN, show fieldN 0xF00F#16 = 0xF#4 by decide, nibble_and_ones]

theorem and_mask_F0FF (op : Word) : op &&& 0xF0FF#16 = encodeXI (topNibble op) 0#4 (fieldNN op) := by
  rw [fieldNN_eq]
  apply word_ext
  · rw [topNibble_and, topNibble_encodeXI, show topNibble 0xF0FF#16 = 0xF#4 by decide, nibble_and_ones]
  · rw [fieldX_and, fieldX_encodeXI, show fieldX 0xF0FF#16 = 0#4 by decide, nibble_and_zero]
  · rw [fieldY_and, fieldY_encodeXI, show fieldY 0xF0FF#16 = 0xF#4 by decide, nibble_and_ones, ← fieldNN_eq]
    simp [fieldNN, fieldY, BitVec.extractLsb'_extractLsb'_of_le]
  · rw [fieldN_and, fieldN_encodeXI, show fieldN 0xF0FF#16 = 0xF#4 by decide, nibble_and_ones, ← fieldNN_eq]
    simp [fieldNN, fieldN, BitVec.extractLsb'_extractLsb'_of_le]

/-- The bytes of a word, put together again, are the word (R44, R73). -/
@[simp] theorem wordOfBytes_highByte_lowByte (op : Word) : wordOfBytes (highByte op) (lowByte op) = op := by
  apply BitVec.eq_of_getLsbD_eq
  intro i hi
  simp only [wordOfBytes, highByte, lowByte, BitVec.getLsbD_append, BitVec.getLsbD_extractLsb']
  by_cases h : i < 8
  · simp [h]
  · simp [h, show i - 8 < 8 by omega, show 8 + (i - 8) = i by omega]

/-! ### The assembler's words (R70) -/

/-- R70: an assembler writes the encoded word of every instruction but `Fx18`, whose `x` it writes as 0. -/
theorem assemble_eq_encode (i : Instr) (h : ∀ x, i ≠ .ldStVx x) : assemble i = encode i := by
  cases i with
  | ldStVx x => exact absurd rfl (h x)
  | cls | ret => decide
  | seReg x y | sneReg x y => revert x y; decide +kernel
  | shr x | shl x => revert x; decide +kernel
  | _ => simpa [assemble, assemblerFill, ignoredBits] using BitVec.and_allOnes (w := 16)

/-- R70: the assembler's one word for `Fx18`. -/
theorem assemble_ldStVx (x : Nibble) : assemble (.ldStVx x) = 0xF018#16 := by revert x; decide

end Sys2Proof
end

