-- ==== Sys2Proof/Laws/Framebuffer.lean ====
section
/-! SUPPORT. The laws of the framebuffer primitives (R52) and of the sprite's innermost lines (R171). -/

namespace Sys2Proof.Machine

theorem getLsbD_setCell (row : BitVec 64) (c j : Nat) (b : Bool) (h : c < 64) :
    (setCell row c b).getLsbD j = if j = c then b else row.getLsbD j := by
  unfold setCell
  cases b <;> simp [BitVec.getLsbD_twoPow] <;> grind

/-- `FbRead` after `FbWrite`, both indices reduced mod 2048 (R52). -/
theorem fbRead_fbWrite (fb : Framebuffer) (i j : Nat) (b : Bool) :
    fbRead (fbWrite fb i b) j = if j % 2048 = i % 2048 then b else fbRead fb j := by
  unfold fbRead fbWrite
  rw [Vector.getElem_set]
  split
  · rw [getLsbD_setCell _ _ _ _ (by omega)]
    have : (j % 64 = i % 64) ↔ j % 2048 = i % 2048 := by omega
    simp only [this]
    congr 2
    simp [*]
  · rw [if_neg (by intro h; simp_all)]

/-- `FbRead` depends on the index mod 2048 only (R52). -/
theorem fbRead_mod (fb : Framebuffer) (i : Nat) : fbRead fb (i % 2048) = fbRead fb i := by
  unfold fbRead
  simp [show i % 2048 % 64 = i % 64 by omega]

/-- Every cell of a cleared framebuffer is 0 (R170). -/
@[simp] theorem fbRead_fbClear (i : Nat) : fbRead fbClear i = false := by simp [fbRead, fbClear]

/-- Framebuffers with equal cells are equal data. -/
theorem Framebuffer.ext_of_fbRead {f g : Framebuffer} (h : ∀ i, i < 2048 → fbRead f i = fbRead g i) : f = g := by
  apply Vector.ext
  intro r hr
  apply BitVec.eq_of_getLsbD_eq
  intro c hc
  have := h (64 * r + c) (by omega)
  unfold fbRead at this
  simpa [show (64 * r + c) % 2048 / 64 = r by omega, show (64 * r + c) % 64 = c by omega] using this

/-- The innermost lines of R171 on a cell: the plotted one is toggled, the others are untouched. -/
theorem fbRead_plotCell (c : Canvas) (i j : Nat) :
    fbRead (plotCell c i).fb j = if j % 2048 = i % 2048 then !fbRead c.fb i else fbRead c.fb j :=
  fbRead_fbWrite _ _ _ _

@[simp] theorem plotCell_collision (c : Canvas) (i : Nat) :
    (plotCell c i).collision = (c.collision || fbRead c.fb i) := rfl

end Sys2Proof.Machine
end

