-- ==== Sys2Proof/Laws/Display.lean ====
section
/-! SUPPORT. The sprite loop of R171 as a plot of a list of cell indices, and what such a plot does when the indices are
pairwise distinct mod 2048, which those of one sprite are (R172). -/

namespace Sys2Proof.Machine

/-- The indices one sprite row plots, in the loop's order. -/
def rowIndices (x0 y0 i : Nat) (row : Byte) : List Nat :=
  ((List.range 8).filter fun j => row.getLsbD (7 - j)).map fun j => cellIndex x0 y0 i j

/-- The indices the sprite rows from row `i` on plot, in the loop's order. -/
def spriteIndices (x0 y0 : Nat) : Nat → List Byte → List Nat
  | _, [] => []
  | i, row :: rows => rowIndices x0 y0 i row ++ spriteIndices x0 y0 (i + 1) rows

/-- Plot the cells of a list of indices one after the other. -/
def plotAll (c : Canvas) (l : List Nat) : Canvas := l.foldl plotCell c

theorem drawRow_eq_plotAll (x0 y0 i : Nat) (row : Byte) (c : Canvas) :
    drawRow x0 y0 i row c = plotAll c (rowIndices x0 y0 i row) := by
  unfold drawRow plotAll rowIndices
  rw [List.foldl_map]
  generalize List.range 8 = l
  induction l generalizing c with
  | nil => rfl
  | cons j l ih => by_cases h : row.getLsbD (7 - j) = true <;> simp [h, ih]

/-- The loop of R171 is a plot of the sprite's indices. -/
theorem drawRows_eq_plotAll (x0 y0 i : Nat) (rows : List Byte) (c : Canvas) :
    drawRows x0 y0 i rows c = plotAll c (spriteIndices x0 y0 i rows) := by
  induction rows generalizing i c with
  | nil => rfl
  | cons row rows ih =>
    rw [drawRows, ih, drawRow_eq_plotAll, spriteIndices]
    simp [plotAll, List.foldl_append]

/-- Which indices a sprite plots. -/
theorem mem_spriteIndices (x0 y0 i : Nat) (rows : List Byte) (q : Nat) :
    q ∈ spriteIndices x0 y0 i rows ↔
      ∃ k j, k < rows.length ∧ j < 8 ∧ (rows.getD k 0).getLsbD (7 - j) = true ∧ q = cellIndex x0 y0 (i + k) j := by
  induction rows generalizing i with
  | nil => simp [spriteIndices]
  | cons row rows ih =>
    rw [spriteIndices, List.mem_append, ih]
    constructor
    · rintro (h | ⟨k, j, hk, hj, hb, rfl⟩)
      · simp only [rowIndices, List.mem_map, List.mem_filter, List.mem_range] at h
        obtain ⟨j, ⟨hj, hb⟩, rfl⟩ := h
        exact ⟨0, j, by simp, hj, by simpa using hb, rfl⟩
      · exact ⟨k + 1, j, by simpa using hk, hj, by simpa using hb, by rw [Nat.add_right_comm, Nat.add_assoc]⟩
    · rintro ⟨k, j, hk, hj, hb, rfl⟩
      cases k with
      | zero =>
        left
        simp only [rowIndices, List.mem_map, List.mem_filter, List.mem_range]
        exact ⟨j, ⟨hj, by simpa using hb⟩, rfl⟩
      | succ k =>
        right
        exact ⟨k, j, by simpa using hk, hj, by simpa using hb, by rw [Nat.add_right_comm, Nat.add_assoc]⟩

/-- R172: the offsets of one sprite are distinct mod 2048. -/
theorem cellIndex_inj {x0 y0 i j i' j' : Nat} (hi : i < 16) (hj : j < 8) (hi' : i' < 16) (hj' : j' < 8)
    (h : cellIndex x0 y0 i j % 2048 = cellIndex x0 y0 i' j' % 2048) : i = i' ∧ j = j' := by
  unfold cellIndex at h
  omega

/-- R172: the cells one sprite plots are pairwise distinct. -/
theorem spriteIndices_distinct (x0 y0 i : Nat) (rows : List Byte) (h : i + rows.length ≤ 16) :
    (spriteIndices x0 y0 i rows).Pairwise fun a b => a % 2048 ≠ b % 2048 := by
  induction rows generalizing i with
  | nil => exact List.Pairwise.nil
  | cons row rows ih =>
    simp only [List.length_cons] at h
    rw [spriteIndices, List.pairwise_append]
    refine ⟨?_, ih (i + 1) (by omega), ?_⟩
    · rw [rowIndices, List.pairwise_map]
      refine List.Pairwise.imp_of_mem ?_ (List.Pairwise.filter _ List.nodup_range)
      intro a b ha hb hab e
      simp only [List.mem_filter, List.mem_range] at ha hb
      exact hab (cellIndex_inj (by omega) ha.1 (by omega) hb.1 e).2
    · intro a ha b hb e
      simp only [rowIndices, List.mem_map, List.mem_filter, List.mem_range] at ha
      obtain ⟨j, ⟨hj, -⟩, rfl⟩ := ha
      obtain ⟨k, j', hk, hj', -, rfl⟩ := (mem_spriteIndices _ _ _ _ _).mp hb
      have := (cellIndex_inj (by omega) hj (by omega) hj' e).1
      omega

/-- Distinct plotted cells are toggled, the others are untouched. -/
theorem fbRead_plotAll (c : Canvas) (l : List Nat) (hl : l.Pairwise fun a b => a % 2048 ≠ b % 2048) (q : Nat) :
    fbRead (plotAll c l).fb q = (fbRead c.fb q != decide (∃ a ∈ l, a % 2048 = q % 2048)) := by
  induction l generalizing c with
  | nil => simp [plotAll]
  | cons a l ih =>
    rw [List.pairwise_cons] at hl
    rw [plotAll, List.foldl_cons, ← plotAll, ih _ hl.2, fbRead_plotCell]
    by_cases h : q % 2048 = a % 2048
    · have hn : ¬ ∃ b ∈ l, b % 2048 = q % 2048 := fun ⟨b, hb, e⟩ => hl.1 b hb (by omega)
      have hy : ∃ b ∈ a :: l, b % 2048 = q % 2048 := ⟨a, by simp, h.symm⟩
      have hr : fbRead c.fb a = fbRead c.fb q := by rw [← fbRead_mod c.fb a, ← h, fbRead_mod]
      simp only [h, if_true, hr]
      rw [← h]
      simp only [hn, hy]
      simp
    · have : (∃ b ∈ a :: l, b % 2048 = q % 2048) ↔ ∃ b ∈ l, b % 2048 = q % 2048 := by
        simp only [List.mem_cons, exists_eq_or_imp]
        exact or_iff_right (fun e => h e.symm)
      simp only [h, if_false, this]

/-- A collision is noted exactly when a distinct plotted cell was 1 before the plot. -/
theorem collision_plotAll (c : Canvas) (l : List Nat) (hl : l.Pairwise fun a b => a % 2048 ≠ b % 2048) :
    (plotAll c l).collision = (c.collision || decide (∃ a ∈ l, fbRead c.fb a = true)) := by
  induction l generalizing c with
  | nil => simp [plotAll]
  | cons a l ih =>
    rw [List.pairwise_cons] at hl
    rw [plotAll, List.foldl_cons, ← plotAll, ih _ hl.2, plotCell_collision]
    have : (∃ b ∈ l, fbRead (plotCell c a).fb b = true) ↔ ∃ b ∈ l, fbRead c.fb b = true := by
      refine exists_congr fun b => and_congr_right fun hb => ?_
      rw [fbRead_plotCell, if_neg (fun e => hl.1 b hb e.symm)]
    simp only [this, List.mem_cons, exists_eq_or_imp, Bool.decide_or, Bool.decide_eq_true, Bool.or_assoc]

end Sys2Proof.Machine
end

