-- ==== Sys2Proof/Laws/State.lean ====
section
/-! SUPPORT. What each update of the state does to each field: one lemma per field per update, true by rfl, so that no proof
unfolds a record update. -/

namespace Sys2Proof.Machine

variable (s : State)

/-! ### setV -/

@[simp] theorem State.setV_v (r : Nibble) (b : Byte) : (s.setV r b).v = s.v.set r.toNat b := rfl
@[simp] theorem State.setV_index (r : Nibble) (b : Byte) : (s.setV r b).index = s.index := rfl
@[simp] theorem State.setV_pc (r : Nibble) (b : Byte) : (s.setV r b).pc = s.pc := rfl
@[simp] theorem State.setV_sp (r : Nibble) (b : Byte) : (s.setV r b).sp = s.sp := rfl
@[simp] theorem State.setV_stack (r : Nibble) (b : Byte) : (s.setV r b).stack = s.stack := rfl
@[simp] theorem State.setV_dt (r : Nibble) (b : Byte) : (s.setV r b).dt = s.dt := rfl
@[simp] theorem State.setV_keys (r : Nibble) (b : Byte) : (s.setV r b).keys = s.keys := rfl
@[simp] theorem State.setV_fb (r : Nibble) (b : Byte) : (s.setV r b).fb = s.fb := rfl
@[simp] theorem State.setV_drawFlag (r : Nibble) (b : Byte) : (s.setV r b).drawFlag = s.drawFlag := rfl
@[simp] theorem State.setV_mem (r : Nibble) (b : Byte) : (s.setV r b).mem = s.mem := rfl
@[simp] theorem State.setV_fault (r : Nibble) (b : Byte) : (s.setV r b).fault = s.fault := rfl
@[simp] theorem State.setV_draws (r : Nibble) (b : Byte) : (s.setV r b).draws = s.draws := rfl
@[simp] theorem State.setV_key (r : Nibble) (b : Byte) (q : Nibble) : (s.setV r b).key q = s.key q := rfl
@[simp] theorem State.setV_stackEntry (r : Nibble) (b : Byte) (q : BitVec 6) : (s.setV r b).stackEntry q = s.stackEntry q := rfl

/-! ### setIndex -/

@[simp] theorem State.setIndex_v (a : Word) : (s.setIndex a).v = s.v := rfl
@[simp] theorem State.setIndex_index (a : Word) : (s.setIndex a).index = a := rfl
@[simp] theorem State.setIndex_pc (a : Word) : (s.setIndex a).pc = s.pc := rfl
@[simp] theorem State.setIndex_sp (a : Word) : (s.setIndex a).sp = s.sp := rfl
@[simp] theorem State.setIndex_stack (a : Word) : (s.setIndex a).stack = s.stack := rfl
@[simp] theorem State.setIndex_dt (a : Word) : (s.setIndex a).dt = s.dt := rfl
@[simp] theorem State.setIndex_keys (a : Word) : (s.setIndex a).keys = s.keys := rfl
@[simp] theorem State.setIndex_fb (a : Word) : (s.setIndex a).fb = s.fb := rfl
@[simp] theorem State.setIndex_drawFlag (a : Word) : (s.setIndex a).drawFlag = s.drawFlag := rfl
@[simp] theorem State.setIndex_mem (a : Word) : (s.setIndex a).mem = s.mem := rfl
@[simp] theorem State.setIndex_fault (a : Word) : (s.setIndex a).fault = s.fault := rfl
@[simp] theorem State.setIndex_draws (a : Word) : (s.setIndex a).draws = s.draws := rfl
@[simp] theorem State.setIndex_getV (a : Word) (q : Nibble) : (s.setIndex a).getV q = s.getV q := rfl
@[simp] theorem State.setIndex_key (a : Word) (q : Nibble) : (s.setIndex a).key q = s.key q := rfl
@[simp] theorem State.setIndex_stackEntry (a : Word) (q : BitVec 6) : (s.setIndex a).stackEntry q = s.stackEntry q := rfl

/-! ### setDt -/

@[simp] theorem State.setDt_v (t : Word) : (s.setDt t).v = s.v := rfl
@[simp] theorem State.setDt_index (t : Word) : (s.setDt t).index = s.index := rfl
@[simp] theorem State.setDt_pc (t : Word) : (s.setDt t).pc = s.pc := rfl
@[simp] theorem State.setDt_sp (t : Word) : (s.setDt t).sp = s.sp := rfl
@[simp] theorem State.setDt_stack (t : Word) : (s.setDt t).stack = s.stack := rfl
@[simp] theorem State.setDt_dt (t : Word) : (s.setDt t).dt = t := rfl
@[simp] theorem State.setDt_keys (t : Word) : (s.setDt t).keys = s.keys := rfl
@[simp] theorem State.setDt_fb (t : Word) : (s.setDt t).fb = s.fb := rfl
@[simp] theorem State.setDt_drawFlag (t : Word) : (s.setDt t).drawFlag = s.drawFlag := rfl
@[simp] theorem State.setDt_mem (t : Word) : (s.setDt t).mem = s.mem := rfl
@[simp] theorem State.setDt_fault (t : Word) : (s.setDt t).fault = s.fault := rfl
@[simp] theorem State.setDt_draws (t : Word) : (s.setDt t).draws = s.draws := rfl
@[simp] theorem State.setDt_getV (t : Word) (q : Nibble) : (s.setDt t).getV q = s.getV q := rfl
@[simp] theorem State.setDt_key (t : Word) (q : Nibble) : (s.setDt t).key q = s.key q := rfl
@[simp] theorem State.setDt_stackEntry (t : Word) (q : BitVec 6) : (s.setDt t).stackEntry q = s.stackEntry q := rfl

/-! ### setPc -/

@[simp] theorem State.setPc_v (a : Word) : (s.setPc a).v = s.v := rfl
@[simp] theorem State.setPc_index (a : Word) : (s.setPc a).index = s.index := rfl
@[simp] theorem State.setPc_pc (a : Word) : (s.setPc a).pc = a := rfl
@[simp] theorem State.setPc_sp (a : Word) : (s.setPc a).sp = s.sp := rfl
@[simp] theorem State.setPc_stack (a : Word) : (s.setPc a).stack = s.stack := rfl
@[simp] theorem State.setPc_dt (a : Word) : (s.setPc a).dt = s.dt := rfl
@[simp] theorem State.setPc_keys (a : Word) : (s.setPc a).keys = s.keys := rfl
@[simp] theorem State.setPc_fb (a : Word) : (s.setPc a).fb = s.fb := rfl
@[simp] theorem State.setPc_drawFlag (a : Word) : (s.setPc a).drawFlag = s.drawFlag := rfl
@[simp] theorem State.setPc_mem (a : Word) : (s.setPc a).mem = s.mem := rfl
@[simp] theorem State.setPc_fault (a : Word) : (s.setPc a).fault = s.fault := rfl
@[simp] theorem State.setPc_draws (a : Word) : (s.setPc a).draws = s.draws := rfl
@[simp] theorem State.setPc_getV (a : Word) (q : Nibble) : (s.setPc a).getV q = s.getV q := rfl
@[simp] theorem State.setPc_key (a : Word) (q : Nibble) : (s.setPc a).key q = s.key q := rfl
@[simp] theorem State.setPc_stackEntry (a : Word) (q : BitVec 6) : (s.setPc a).stackEntry q = s.stackEntry q := rfl

/-! ### next -/

@[simp] theorem State.next_v : s.next.v = s.v := rfl
@[simp] theorem State.next_index : s.next.index = s.index := rfl
@[simp] theorem State.next_pc : s.next.pc = s.pc + 2 := rfl
@[simp] theorem State.next_sp : s.next.sp = s.sp := rfl
@[simp] theorem State.next_stack : s.next.stack = s.stack := rfl
@[simp] theorem State.next_dt : s.next.dt = s.dt := rfl
@[simp] theorem State.next_keys : s.next.keys = s.keys := rfl
@[simp] theorem State.next_fb : s.next.fb = s.fb := rfl
@[simp] theorem State.next_drawFlag : s.next.drawFlag = s.drawFlag := rfl
@[simp] theorem State.next_mem : s.next.mem = s.mem := rfl
@[simp] theorem State.next_fault : s.next.fault = s.fault := rfl
@[simp] theorem State.next_draws : s.next.draws = s.draws := rfl
@[simp] theorem State.next_getV (q : Nibble) : s.next.getV q = s.getV q := rfl
@[simp] theorem State.next_key (q : Nibble) : s.next.key q = s.key q := rfl
@[simp] theorem State.next_stackEntry (q : BitVec 6) : s.next.stackEntry q = s.stackEntry q := rfl

/-! ### skipIf -/

@[simp] theorem State.skipIf_v (c : Bool) : (s.skipIf c).v = s.v := rfl
@[simp] theorem State.skipIf_index (c : Bool) : (s.skipIf c).index = s.index := rfl
@[simp] theorem State.skipIf_pc (c : Bool) : (s.skipIf c).pc = if c then s.pc + 4 else s.pc + 2 := rfl
@[simp] theorem State.skipIf_sp (c : Bool) : (s.skipIf c).sp = s.sp := rfl
@[simp] theorem State.skipIf_stack (c : Bool) : (s.skipIf c).stack = s.stack := rfl
@[simp] theorem State.skipIf_dt (c : Bool) : (s.skipIf c).dt = s.dt := rfl
@[simp] theorem State.skipIf_keys (c : Bool) : (s.skipIf c).keys = s.keys := rfl
@[simp] theorem State.skipIf_fb (c : Bool) : (s.skipIf c).fb = s.fb := rfl
@[simp] theorem State.skipIf_drawFlag (c : Bool) : (s.skipIf c).drawFlag = s.drawFlag := rfl
@[simp] theorem State.skipIf_mem (c : Bool) : (s.skipIf c).mem = s.mem := rfl
@[simp] theorem State.skipIf_fault (c : Bool) : (s.skipIf c).fault = s.fault := rfl
@[simp] theorem State.skipIf_draws (c : Bool) : (s.skipIf c).draws = s.draws := rfl
@[simp] theorem State.skipIf_getV (c : Bool) (q : Nibble) : (s.skipIf c).getV q = s.getV q := rfl
@[simp] theorem State.skipIf_key (c : Bool) (q : Nibble) : (s.skipIf c).key q = s.key q := rfl
@[simp] theorem State.skipIf_stackEntry (c : Bool) (q : BitVec 6) : (s.skipIf c).stackEntry q = s.stackEntry q := rfl

/-! ### setMem -/

@[simp] theorem State.setMem_v (m : Memory) : (s.setMem m).v = s.v := rfl
@[simp] theorem State.setMem_index (m : Memory) : (s.setMem m).index = s.index := rfl
@[simp] theorem State.setMem_pc (m : Memory) : (s.setMem m).pc = s.pc := rfl
@[simp] theorem State.setMem_sp (m : Memory) : (s.setMem m).sp = s.sp := rfl
@[simp] theorem State.setMem_stack (m : Memory) : (s.setMem m).stack = s.stack := rfl
@[simp] theorem State.setMem_dt (m : Memory) : (s.setMem m).dt = s.dt := rfl
@[simp] theorem State.setMem_keys (m : Memory) : (s.setMem m).keys = s.keys := rfl
@[simp] theorem State.setMem_fb (m : Memory) : (s.setMem m).fb = s.fb := rfl
@[simp] theorem State.setMem_drawFlag (m : Memory) : (s.setMem m).drawFlag = s.drawFlag := rfl
@[simp] theorem State.setMem_mem (m : Memory) : (s.setMem m).mem = m := rfl
@[simp] theorem State.setMem_fault (m : Memory) : (s.setMem m).fault = s.fault := rfl
@[simp] theorem State.setMem_draws (m : Memory) : (s.setMem m).draws = s.draws := rfl
@[simp] theorem State.setMem_getV (m : Memory) (q : Nibble) : (s.setMem m).getV q = s.getV q := rfl
@[simp] theorem State.setMem_key (m : Memory) (q : Nibble) : (s.setMem m).key q = s.key q := rfl
@[simp] theorem State.setMem_stackEntry (m : Memory) (q : BitVec 6) : (s.setMem m).stackEntry q = s.stackEntry q := rfl

/-! ### setFb -/

@[simp] theorem State.setFb_v (g : Framebuffer) : (s.setFb g).v = s.v := rfl
@[simp] theorem State.setFb_index (g : Framebuffer) : (s.setFb g).index = s.index := rfl
@[simp] theorem State.setFb_pc (g : Framebuffer) : (s.setFb g).pc = s.pc := rfl
@[simp] theorem State.setFb_sp (g : Framebuffer) : (s.setFb g).sp = s.sp := rfl
@[simp] theorem State.setFb_stack (g : Framebuffer) : (s.setFb g).stack = s.stack := rfl
@[simp] theorem State.setFb_dt (g : Framebuffer) : (s.setFb g).dt = s.dt := rfl
@[simp] theorem State.setFb_keys (g : Framebuffer) : (s.setFb g).keys = s.keys := rfl
@[simp] theorem State.setFb_fb (g : Framebuffer) : (s.setFb g).fb = g := rfl
@[simp] theorem State.setFb_drawFlag (g : Framebuffer) : (s.setFb g).drawFlag = true := rfl
@[simp] theorem State.setFb_mem (g : Framebuffer) : (s.setFb g).mem = s.mem := rfl
@[simp] theorem State.setFb_fault (g : Framebuffer) : (s.setFb g).fault = s.fault := rfl
@[simp] theorem State.setFb_draws (g : Framebuffer) : (s.setFb g).draws = s.draws := rfl
@[simp] theorem State.setFb_getV (g : Framebuffer) (q : Nibble) : (s.setFb g).getV q = s.getV q := rfl
@[simp] theorem State.setFb_key (g : Framebuffer) (q : Nibble) : (s.setFb g).key q = s.key q := rfl
@[simp] theorem State.setFb_stackEntry (g : Framebuffer) (q : BitVec 6) : (s.setFb g).stackEntry q = s.stackEntry q := rfl

/-! ### drawn -/

@[simp] theorem State.drawn_v : s.drawn.v = s.v := rfl
@[simp] theorem State.drawn_index : s.drawn.index = s.index := rfl
@[simp] theorem State.drawn_pc : s.drawn.pc = s.pc := rfl
@[simp] theorem State.drawn_sp : s.drawn.sp = s.sp := rfl
@[simp] theorem State.drawn_stack : s.drawn.stack = s.stack := rfl
@[simp] theorem State.drawn_dt : s.drawn.dt = s.dt := rfl
@[simp] theorem State.drawn_keys : s.drawn.keys = s.keys := rfl
@[simp] theorem State.drawn_fb : s.drawn.fb = s.fb := rfl
@[simp] theorem State.drawn_drawFlag : s.drawn.drawFlag = s.drawFlag := rfl
@[simp] theorem State.drawn_mem : s.drawn.mem = s.mem := rfl
@[simp] theorem State.drawn_fault : s.drawn.fault = s.fault := rfl
@[simp] theorem State.drawn_draws : s.drawn.draws = s.draws + 1 := rfl
@[simp] theorem State.drawn_getV (q : Nibble) : s.drawn.getV q = s.getV q := rfl
@[simp] theorem State.drawn_key (q : Nibble) : s.drawn.key q = s.key q := rfl
@[simp] theorem State.drawn_stackEntry (q : BitVec 6) : s.drawn.stackEntry q = s.stackEntry q := rfl

/-! ### push -/

@[simp] theorem State.push_v (w : Word) : (s.push w).v = s.v := rfl
@[simp] theorem State.push_index (w : Word) : (s.push w).index = s.index := rfl
@[simp] theorem State.push_pc (w : Word) : (s.push w).pc = s.pc := rfl
@[simp] theorem State.push_sp (w : Word) : (s.push w).sp = s.sp + 1 := rfl
@[simp] theorem State.push_stack (w : Word) : (s.push w).stack = s.stack.setIfInBounds s.sp.toNat w := rfl
@[simp] theorem State.push_dt (w : Word) : (s.push w).dt = s.dt := rfl
@[simp] theorem State.push_keys (w : Word) : (s.push w).keys = s.keys := rfl
@[simp] theorem State.push_fb (w : Word) : (s.push w).fb = s.fb := rfl
@[simp] theorem State.push_drawFlag (w : Word) : (s.push w).drawFlag = s.drawFlag := rfl
@[simp] theorem State.push_mem (w : Word) : (s.push w).mem = s.mem := rfl
@[simp] theorem State.push_fault (w : Word) : (s.push w).fault = s.fault := rfl
@[simp] theorem State.push_draws (w : Word) : (s.push w).draws = s.draws := rfl
@[simp] theorem State.push_getV (w : Word) (q : Nibble) : (s.push w).getV q = s.getV q := rfl
@[simp] theorem State.push_key (w : Word) (q : Nibble) : (s.push w).key q = s.key q := rfl

/-! ### popped -/

@[simp] theorem State.popped_v : s.popped.v = s.v := rfl
@[simp] theorem State.popped_index : s.popped.index = s.index := rfl
@[simp] theorem State.popped_pc : s.popped.pc = s.pc := rfl
@[simp] theorem State.popped_sp : s.popped.sp = s.sp - 1 := rfl
@[simp] theorem State.popped_stack : s.popped.stack = s.stack := rfl
@[simp] theorem State.popped_dt : s.popped.dt = s.dt := rfl
@[simp] theorem State.popped_keys : s.popped.keys = s.keys := rfl
@[simp] theorem State.popped_fb : s.popped.fb = s.fb := rfl
@[simp] theorem State.popped_drawFlag : s.popped.drawFlag = s.drawFlag := rfl
@[simp] theorem State.popped_mem : s.popped.mem = s.mem := rfl
@[simp] theorem State.popped_fault : s.popped.fault = s.fault := rfl
@[simp] theorem State.popped_draws : s.popped.draws = s.draws := rfl
@[simp] theorem State.popped_getV (q : Nibble) : s.popped.getV q = s.getV q := rfl
@[simp] theorem State.popped_key (q : Nibble) : s.popped.key q = s.key q := rfl
@[simp] theorem State.popped_stackEntry (q : BitVec 6) : s.popped.stackEntry q = s.stackEntry q := rfl

/-! ### raise -/

@[simp] theorem State.raise_v (c : FaultReg) : (s.raise c).v = s.v := rfl
@[simp] theorem State.raise_index (c : FaultReg) : (s.raise c).index = s.index := rfl
@[simp] theorem State.raise_pc (c : FaultReg) : (s.raise c).pc = s.pc := rfl
@[simp] theorem State.raise_sp (c : FaultReg) : (s.raise c).sp = s.sp := rfl
@[simp] theorem State.raise_stack (c : FaultReg) : (s.raise c).stack = s.stack := rfl
@[simp] theorem State.raise_dt (c : FaultReg) : (s.raise c).dt = s.dt := rfl
@[simp] theorem State.raise_keys (c : FaultReg) : (s.raise c).keys = s.keys := rfl
@[simp] theorem State.raise_fb (c : FaultReg) : (s.raise c).fb = s.fb := rfl
@[simp] theorem State.raise_drawFlag (c : FaultReg) : (s.raise c).drawFlag = s.drawFlag := rfl
@[simp] theorem State.raise_mem (c : FaultReg) : (s.raise c).mem = s.mem := rfl
@[simp] theorem State.raise_fault (c : FaultReg) : (s.raise c).fault = c := rfl
@[simp] theorem State.raise_draws (c : FaultReg) : (s.raise c).draws = s.draws := rfl
@[simp] theorem State.raise_getV (c : FaultReg) (q : Nibble) : (s.raise c).getV q = s.getV q := rfl
@[simp] theorem State.raise_key (c : FaultReg) (q : Nibble) : (s.raise c).key q = s.key q := rfl
@[simp] theorem State.raise_stackEntry (c : FaultReg) (q : BitVec 6) : (s.raise c).stackEntry q = s.stackEntry q := rfl

/-! ### writeKey -/

@[simp] theorem State.writeKey_v (k : Nibble) (p : Bool) : (s.writeKey k p).v = s.v := rfl
@[simp] theorem State.writeKey_index (k : Nibble) (p : Bool) : (s.writeKey k p).index = s.index := rfl
@[simp] theorem State.writeKey_pc (k : Nibble) (p : Bool) : (s.writeKey k p).pc = s.pc := rfl
@[simp] theorem State.writeKey_sp (k : Nibble) (p : Bool) : (s.writeKey k p).sp = s.sp := rfl
@[simp] theorem State.writeKey_stack (k : Nibble) (p : Bool) : (s.writeKey k p).stack = s.stack := rfl
@[simp] theorem State.writeKey_dt (k : Nibble) (p : Bool) : (s.writeKey k p).dt = s.dt := rfl
@[simp] theorem State.writeKey_keys (k : Nibble) (p : Bool) : (s.writeKey k p).keys = s.keys.set k.toNat p := rfl
@[simp] theorem State.writeKey_fb (k : Nibble) (p : Bool) : (s.writeKey k p).fb = s.fb := rfl
@[simp] theorem State.writeKey_drawFlag (k : Nibble) (p : Bool) : (s.writeKey k p).drawFlag = s.drawFlag := rfl
@[simp] theorem State.writeKey_mem (k : Nibble) (p : Bool) : (s.writeKey k p).mem = s.mem := rfl
@[simp] theorem State.writeKey_fault (k : Nibble) (p : Bool) : (s.writeKey k p).fault = s.fault := rfl
@[simp] theorem State.writeKey_draws (k : Nibble) (p : Bool) : (s.writeKey k p).draws = s.draws := rfl
@[simp] theorem State.writeKey_getV (k : Nibble) (p : Bool) (q : Nibble) : (s.writeKey k p).getV q = s.getV q := rfl
@[simp] theorem State.writeKey_stackEntry (k : Nibble) (p : Bool) (q : BitVec 6) : (s.writeKey k p).stackEntry q = s.stackEntry q := rfl

/-! ### consumeFrame -/

@[simp] theorem State.consumeFrame_v : s.consumeFrame.v = s.v := rfl
@[simp] theorem State.consumeFrame_index : s.consumeFrame.index = s.index := rfl
@[simp] theorem State.consumeFrame_pc : s.consumeFrame.pc = s.pc := rfl
@[simp] theorem State.consumeFrame_sp : s.consumeFrame.sp = s.sp := rfl
@[simp] theorem State.consumeFrame_stack : s.consumeFrame.stack = s.stack := rfl
@[simp] theorem State.consumeFrame_dt : s.consumeFrame.dt = s.dt := rfl
@[simp] theorem State.consumeFrame_keys : s.consumeFrame.keys = s.keys := rfl
@[simp] theorem State.consumeFrame_fb : s.consumeFrame.fb = s.fb := rfl
@[simp] theorem State.consumeFrame_drawFlag : s.consumeFrame.drawFlag = false := rfl
@[simp] theorem State.consumeFrame_mem : s.consumeFrame.mem = s.mem := rfl
@[simp] theorem State.consumeFrame_fault : s.consumeFrame.fault = s.fault := rfl
@[simp] theorem State.consumeFrame_draws : s.consumeFrame.draws = s.draws := rfl
@[simp] theorem State.consumeFrame_getV (q : Nibble) : s.consumeFrame.getV q = s.getV q := rfl
@[simp] theorem State.consumeFrame_key (q : Nibble) : s.consumeFrame.key q = s.key q := rfl
@[simp] theorem State.consumeFrame_stackEntry (q : BitVec 6) : s.consumeFrame.stackEntry q = s.stackEntry q := rfl

end Sys2Proof.Machine
end

