-- ==== Sys2Proof/Laws/Registers.lean ====
section
/-! SUPPORT. Reading registers, keys and stack entries after an update; the result-and-flag write (R12); the block load
(R155); the tick and the end of a step (R21, R33). -/

namespace Sys2Proof.Machine

/-- A register reads the value last written to it, the others are untouched (R10). -/
@[simp] theorem State.getV_setV (s : State) (x r : Nibble) (b : Byte) :
    (s.setV x b).getV r = if r = x then b else s.getV r := by
  simp only [State.getV, State.setV, Vector.getElem_set, BitVec.toNat_inj, eq_comm]

/-- R12: after a result and its flag, `VF` holds the flag, also when `x = F`. -/
@[simp] theorem State.getV_setResultFlag (s : State) (x r : Nibble) (b : Byte) (f : Bool) :
    (s.setResultFlag x b f).getV r = if r = 0xF then flagByte f else if r = x then b else s.getV r := by
  simp [State.setResultFlag]

/-- The result-and-flag write touches the register file only. -/
theorem State.setResultFlag_eq (s : State) (x : Nibble) (b : Byte) (f : Bool) :
    s.setResultFlag x b f = { s with v := (s.setResultFlag x b f).v } := rfl

/-- The host's key write (R22). -/
@[simp] theorem State.key_writeKey (s : State) (k q : Nibble) (p : Bool) :
    (s.writeKey k p).key q = if q = k then p else s.key q := by
  simp only [State.key, State.writeKey, Vector.getElem_set, BitVec.toNat_inj, eq_comm]

/-- After a push, entry `sp` holds the pushed word and the others are untouched (R102). -/
theorem State.stackEntry_push (s : State) (w : Word) (h : s.sp.toNat < 48) (k : BitVec 6) :
    (s.push w).stackEntry k = if k = s.sp then some w else s.stackEntry k := by
  by_cases hk : k = s.sp
  · subst hk; simp [State.stackEntry, State.push, h]
  · have : s.sp.toNat ≠ k.toNat := fun e => hk (BitVec.toNat_inj.mp e.symm)
    simp [State.stackEntry, State.push, hk, this]

/-- An entry exists exactly for an index below 48 (R54). -/
theorem State.stackEntry_eq_some (s : State) (k : BitVec 6) (h : k.toNat < 48) :
    s.stackEntry k = some s.stack[k.toNat] := by simp [State.stackEntry, h]

theorem State.stackEntry_eq_none (s : State) (k : BitVec 6) (h : 48 ≤ k.toNat) : s.stackEntry k = none := by
  simp [State.stackEntry, h]

/-- The registers a prefix of the block load has written (R155). -/
theorem State.getV_loadBlock_fold (f : Nat → Byte) (s : State) (n : Nat) (hn : n ≤ 16) (r : Nibble) :
    ((List.range n).foldl (fun t k => t.setV (BitVec.ofNat 4 k) (f k)) s).getV r
      = if r.toNat < n then f r.toNat else s.getV r := by
  induction n with
  | zero => simp
  | succ n ih =>
    have hr := r.isLt
    have e : r = BitVec.ofNat 4 n ↔ r.toNat = n := by
      rw [← BitVec.toNat_inj, BitVec.toNat_ofNat, Nat.mod_eq_of_lt (by omega)]
    rw [List.range_succ, List.foldl_append, List.foldl_cons, List.foldl_nil, State.getV_setV, ih (by omega)]
    by_cases h : r.toNat = n
    · simp [e, h]
    · have : (r.toNat < n + 1) ↔ r.toNat < n := by omega
      simp [e, h, this]

/-- `Fx65` (R155): `V0` to `Vx` hold the bytes at `I + k`, the registers above are untouched. -/
theorem State.getV_loadBlock (s : State) (x r : Nibble) :
    (s.loadBlock x).getV r
      = if r.toNat ≤ x.toNat then memRead s.mem (s.index.toNat + r.toNat) else s.getV r := by
  have hx := x.isLt
  rw [State.loadBlock, State.getV_loadBlock_fold (fun k => memRead s.mem (s.dataAddr k)) s _ (by omega)]
  simp [State.dataAddr]

theorem State.loadBlock_fold_eq (f : Nat → Byte) (l : List Nat) (s : State) :
    l.foldl (fun t k => t.setV (BitVec.ofNat 4 k) (f k)) s
      = { s with v := (l.foldl (fun t k => t.setV (BitVec.ofNat 4 k) (f k)) s).v } := by
  induction l generalizing s with
  | nil => rfl
  | cons k l ih => rw [List.foldl_cons, ih (s.setV (BitVec.ofNat 4 k) (f k))]; rfl

/-- `Fx65` touches the register file only (R155: memory and `I` unchanged). -/
theorem State.loadBlock_eq (s : State) (x : Nibble) : s.loadBlock x = { s with v := (s.loadBlock x).v } :=
  State.loadBlock_fold_eq (fun k => memRead s.mem (s.dataAddr k)) _ s

/-- The tick touches the delay timer only, and lowers it by one unless it is zero (R21). -/
theorem State.tick_eq (s : State) : s.tick = { s with dt := if s.dt = 0 then 0 else s.dt - 1 } := by
  unfold State.tick
  split
  · next h => cases s; simp_all
  · next h => cases s; simp_all [State.setDt]

theorem State.tick_dt_toNat (s : State) : s.tick.dt.toNat = s.dt.toNat - 1 := by
  rw [State.tick_eq]
  by_cases h : s.dt = 0
  · simp [h]
  · have : s.dt.toNat ≠ 0 := fun e => h (by apply BitVec.eq_of_toNat_eq; simpa using e)
    simp only [h, if_false]
    rw [BitVec.toNat_sub]; simp; omega

/-- R216: a state in which a fault has been raised is not ticked. -/
theorem State.endStep_halted (s : State) (h : s.fault ≠ .none) : s.endStep = s := by
  simp [State.endStep, State.halted, h]

/-- R21: any other state is. -/
theorem State.endStep_running (s : State) (h : s.fault = .none) : s.endStep = s.tick := by
  simp [State.endStep, State.halted, h]

/-- The end of a step touches the delay timer only (R21, R33). -/
theorem State.endStep_eq (s : State) : s.endStep = { s with dt := s.endStep.dt } := by
  unfold State.endStep
  split
  · rfl
  · rw [State.tick_eq]

@[simp] theorem State.endStep_pc (s : State) : s.endStep.pc = s.pc := by rw [State.endStep_eq]
@[simp] theorem State.endStep_sp (s : State) : s.endStep.sp = s.sp := by rw [State.endStep_eq]
@[simp] theorem State.endStep_fault (s : State) : s.endStep.fault = s.fault := by rw [State.endStep_eq]
@[simp] theorem State.endStep_mem (s : State) : s.endStep.mem = s.mem := by rw [State.endStep_eq]
@[simp] theorem State.endStep_fb (s : State) : s.endStep.fb = s.fb := by rw [State.endStep_eq]
@[simp] theorem State.endStep_keys (s : State) : s.endStep.keys = s.keys := by rw [State.endStep_eq]
@[simp] theorem State.endStep_index (s : State) : s.endStep.index = s.index := by rw [State.endStep_eq]
@[simp] theorem State.endStep_drawFlag (s : State) : s.endStep.drawFlag = s.drawFlag := by rw [State.endStep_eq]
@[simp] theorem State.endStep_getV (s : State) (r : Nibble) : s.endStep.getV r = s.getV r := by
  rw [State.endStep_eq]; rfl

end Sys2Proof.Machine
end

