-- ==== Sys2Proof/Laws/Exec.lean ====
section
/-! SUPPORT. What a step, and each instruction that has more than one outcome, can do: said once, for every later proof to
cite in place of unfolding. -/

namespace Sys2Proof.Machine

/-- `endOutcome` answers a next state exactly on a next state. -/
theorem endOutcome_eq_next {o : Host.Outcome State Fault Refusal} {t : State} (h : endOutcome o = .next t) :
    ∃ u, o = .next u ∧ t = u.endStep := by
  cases o with
  | next u => exact ⟨u, rfl, by simpa [endOutcome] using h.symm⟩
  | fault r => simp [endOutcome] at h
  | refused r => simp [endOutcome] at h

/-- Everything a step that answers a next state can have done (R33). -/
theorem step_cases {s t : State} (h : step s = .next t) :
    (s.halted = true ∧ t = s) ∨
    (s.halted = false ∧ ∃ i u, s.fetched = .instr i ∧ exec i s = .next u ∧ t = u.endStep) ∨
    (s.halted = false ∧ ∃ g, s.fetched = .unknown g ∧ t = s.unknownOpcode.endStep) := by
  unfold step at h
  split at h
  · next hh => exact .inl ⟨hh, by simpa using h.symm⟩
  · next hh =>
    have hh : s.halted = false := by simpa using hh
    split at h
    · next i hi =>
      obtain ⟨u, hu, ht⟩ := endOutcome_eq_next h
      exact .inr (.inl ⟨hh, i, u, hi, hu, ht⟩)
    · next g hg => exact .inr (.inr ⟨hh, g, hg, by simpa [endOutcome] using h.symm⟩)

/-- Everything `00EE` can do (R100, R212). -/
theorem execRet_cases {s t : State} (h : execRet s = .next t) :
    (s.sp = 0 ∧ t = s.raise .stackUnderflow) ∨
    (s.sp ≠ 0 ∧ ∃ a, s.stackEntry (s.sp - 1) = some a ∧ t = s.popped.setPc (a + 2)) := by
  unfold execRet at h
  split at h
  · next h0 => exact .inl ⟨h0, by simpa using h.symm⟩
  · next h0 =>
    split at h
    · next a ha => exact .inr ⟨h0, a, ha, by simpa using h.symm⟩
    · cases h

/-- Everything `2nnn` can do (R102, R213). -/
theorem execCall_cases {nnn : Addr} {s t : State} (h : execCall nnn s = .next t) :
    (s.sp.toNat < 48 ∧ t = (s.push s.pc).setPc (zextAddr nnn)) ∨
    (48 ≤ s.sp.toNat ∧ t = s.raise .stackOverflow) := by
  unfold execCall at h
  split at h
  · next hs => exact .inl ⟨hs, by simpa using h.symm⟩
  · next hs => exact .inr ⟨Nat.le_of_not_lt hs, by simpa using h.symm⟩

/-- Everything `Fx0A` can do (R193). -/
theorem execLdVxK_cases {x : Nibble} {s t : State} (h : execLdVxK x s = .next t) :
    (∃ k, s.highestKey = some k ∧ t = (s.setV x (k.setWidth 8)).next) ∨ (s.highestKey = none ∧ t = s) := by
  unfold execLdVxK at h
  split at h
  · next k hk => exact .inl ⟨k, hk, by simpa using h.symm⟩
  · next hk => exact .inr ⟨hk, by simpa using h.symm⟩

end Sys2Proof.Machine
end

