-- ==== Sys2Proof/Laws/Memory.lean ====
section
/-! SUPPORT. The laws of the memory operations: a read after a write (R40, R43), the canonical form is kept, and equal reads
make equal memories. -/

namespace Sys2Proof.Machine

/-- Raising the lower bound of a canonical form. -/
theorem memWfFrom_mono {lo hi : Nat} {m : Memory} (h : memWfFrom hi m = true) (hl : lo ≤ hi) :
    memWfFrom lo m = true := by
  cases m with
  | nil => rfl
  | cons c m =>
    obtain ⟨b, v⟩ := c
    simp only [memWfFrom, Bool.and_eq_true, decide_eq_true_eq] at h ⊢
    exact ⟨⟨⟨by omega, h.1.1.2⟩, h.1.2⟩, h.2⟩

/-- Below its lower bound a canonical memory holds the background. -/
theorem memGet_of_lt {lo : Nat} {m : Memory} (h : memWfFrom lo m = true) {a : Nat} (ha : a < lo) :
    memGet m a = memBackground a := by
  induction m generalizing lo with
  | nil => rfl
  | cons c m ih =>
    obtain ⟨b, v⟩ := c
    simp only [memWfFrom, Bool.and_eq_true, decide_eq_true_eq] at h
    rw [memGet, if_neg (by omega), ih h.2 (by omega)]

/-- Reading after a write (R40: a read returns the latest write). -/
theorem memGet_memSet {lo : Nat} {m : Memory} (h : memWfFrom lo m = true) (a : Nat) (w : Byte) (q : Nat) :
    memGet (memSet m a w) q = if q = a then w else memGet m q := by
  induction m generalizing lo with
  | nil => unfold memSet; split <;> simp_all [memGet]
  | cons c m ih =>
    obtain ⟨b, v⟩ := c
    have hm := h
    simp only [memWfFrom, Bool.and_eq_true, decide_eq_true_eq] at hm
    unfold memSet
    split
    · next hab =>
      have ga : memGet ((b, v) :: m) a = memBackground a := by
        rw [memGet, if_neg (by omega)]; exact memGet_of_lt hm.2 (by omega)
      split
      · next hw => split <;> simp_all
      · simp [memGet]
    · split
      · next hab =>
        subst hab
        split
        · next hw =>
          split
          · next hq => subst hq; rw [hw]; exact memGet_of_lt hm.2 (by omega)
          · next hq => simp [memGet, hq]
        · by_cases hq : q = a <;> simp [memGet, hq]
      · rw [memGet, ih hm.2, memGet]
        by_cases hq : q = b
        · subst hq; simp_all; omega
        · simp [hq]

/-- A write keeps the canonical form. -/
theorem memWfFrom_memSet {lo : Nat} {m : Memory} (h : memWfFrom lo m = true) {a : Nat} (ha : a < Config.memSize)
    (hl : lo ≤ a) (w : Byte) : memWfFrom lo (memSet m a w) = true := by
  induction m generalizing lo with
  | nil => unfold memSet; split <;> simp_all [memWfFrom]
  | cons c m ih =>
    obtain ⟨b, v⟩ := c
    have hm := h
    simp only [memWfFrom, Bool.and_eq_true, decide_eq_true_eq] at hm
    unfold memSet
    split
    · split
      · exact h
      · next hab hw =>
        simp only [memWfFrom, Bool.and_eq_true, decide_eq_true_eq]
        exact ⟨⟨⟨hl, ha⟩, hw⟩, ⟨⟨⟨hab, hm.1.1.2⟩, hm.1.2⟩, hm.2⟩⟩
    · split
      · next hab =>
        subst hab
        split
        · exact memWfFrom_mono hm.2 (by omega)
        · next hw =>
          simp only [memWfFrom, Bool.and_eq_true, decide_eq_true_eq]
          exact ⟨⟨⟨hl, ha⟩, hw⟩, hm.2⟩
      · simp only [memWfFrom, Bool.and_eq_true, decide_eq_true_eq]
        exact ⟨hm.1, ih hm.2 (by omega)⟩

/-- `MemWrite` keeps the canonical form. -/
theorem memWrite_wf {m : Memory} (h : m.wf = true) (a : Nat) (w : Byte) : (memWrite m a w).wf = true :=
  memWfFrom_memSet h (Nat.mod_lt _ (by decide)) (Nat.zero_le _) w

/-- `MemWrite` of a block keeps the canonical form. -/
theorem memWriteBytes_wf {m : Memory} (h : m.wf = true) (a : Nat) (ws : List Byte) :
    (memWriteBytes m a ws).wf = true := by
  induction ws generalizing m a with
  | nil => exact h
  | cons w ws ih => exact ih (memWrite_wf h a w) (a + 1)

/-- `MemRead` after `MemWrite` (R42, R43). -/
theorem memRead_memWrite {m : Memory} (h : m.wf = true) (a : Nat) (w : Byte) (q : Nat) :
    memRead (memWrite m a w) q = if q % 4096 = a % 4096 then w else memRead m q :=
  memGet_memSet h _ w _

/-- An address that no byte of a block falls on reads as before. -/
theorem memRead_memWriteBytes_other {m : Memory} (h : m.wf = true) (a : Nat) (ws : List Byte) (q : Nat)
    (hq : ∀ k, k < ws.length → q % 4096 ≠ (a + k) % 4096) : memRead (memWriteBytes m a ws) q = memRead m q := by
  induction ws generalizing m a with
  | nil => rfl
  | cons w ws ih =>
    rw [memWriteBytes, ih (memWrite_wf h a w) (a + 1) (fun k hk => by
      have := hq (k + 1) (by simpa using hk); rwa [show a + (k + 1) = a + 1 + k by omega] at this)]
    rw [memRead_memWrite h, if_neg (by simpa using hq 0 (by simp))]

/-- Byte `k` of a block of at most 4096 bytes reads back at `a + k` (R46: its addresses are distinct). -/
theorem memRead_memWriteBytes_same {m : Memory} (h : m.wf = true) (a : Nat) (ws : List Byte) (hl : ws.length ≤ 4096)
    (k : Nat) (hk : k < ws.length) : memRead (memWriteBytes m a ws) (a + k) = ws[k] := by
  induction ws generalizing m a k with
  | nil => simp at hk
  | cons w ws ih =>
    simp only [List.length_cons] at hl hk
    rw [memWriteBytes]
    cases k with
    | zero =>
      rw [memRead_memWriteBytes_other (memWrite_wf h a w) _ _ _ (fun k hk => by omega), memRead_memWrite h]
      simp
    | succ k =>
      have := ih (memWrite_wf h a w) (a + 1) (by omega) k (by omega)
      rwa [show a + (k + 1) = a + 1 + k by omega]

/-- Two canonical memories that read alike are equal data. -/
theorem memWfFrom_ext {lo : Nat} {m n : Memory} (hm : memWfFrom lo m = true) (hn : memWfFrom lo n = true)
    (h : ∀ a, memGet m a = memGet n a) : m = n := by
  induction m generalizing lo n with
  | nil =>
    cases n with
    | nil => rfl
    | cons c n =>
      obtain ⟨b, v⟩ := c
      simp only [memWfFrom, Bool.and_eq_true, decide_eq_true_eq] at hn
      have := h b; simp only [memGet, if_true] at this; exact absurd this.symm hn.1.2
  | cons c m ih =>
    obtain ⟨b, v⟩ := c
    have hm' := hm
    simp only [memWfFrom, Bool.and_eq_true, decide_eq_true_eq] at hm'
    cases n with
    | nil => have := h b; simp only [memGet, if_true] at this; exact absurd this hm'.1.2
    | cons d n =>
      obtain ⟨b', v'⟩ := d
      have hn' := hn
      simp only [memWfFrom, Bool.and_eq_true, decide_eq_true_eq] at hn'
      have hb : b = b' := by
        rcases Nat.lt_trichotomy b b' with hlt | heq | hgt
        · have := h b
          rw [memGet, if_pos rfl, memGet, if_neg (by omega), memGet_of_lt hn'.2 (by omega)] at this
          exact absurd this hm'.1.2
        · exact heq
        · have := h b'
          rw [memGet, if_neg (by omega), memGet_of_lt hm'.2 (by omega), memGet, if_pos rfl] at this
          exact absurd this.symm hn'.1.2
      subst hb
      have hv : v = v' := by have := h b; simpa [memGet] using this
      subst hv
      rw [ih hm'.2 hn'.2 (fun a => by
        by_cases hab : a = b
        · subst hab; rw [memGet_of_lt hm'.2 (by omega), memGet_of_lt hn'.2 (by omega)]
        · have := h a; simpa [memGet, hab] using this)]

/-- Memories are compared as data: canonical ones with equal bytes are equal. -/
theorem Memory.ext_of_memGet {m n : Memory} (hm : m.wf = true) (hn : n.wf = true)
    (h : ∀ a, memGet m a = memGet n a) : m = n := memWfFrom_ext hm hn h

end Sys2Proof.Machine
end

