-- ==== Sys2Proof/Laws/Operands.lean ====
section
/-! SUPPORT. What each operand form and each flag computation gives, as numbers: targets (R101, R107), the glyph address (R152),
the digits (R153), the register block (R154), the highest key (R193), the flags (R126 to R130). -/

namespace Sys2Proof.Machine

theorem zextAddr_toNat (nnn : Addr) : (zextAddr nnn).toNat = nnn.toNat := by
  have := nnn.isLt
  simp [zextAddr]
  omega

theorem zextByte_toNat (b : Byte) : (zextByte b).toNat = b.toNat := by
  have := b.isLt
  simp [zextByte]
  omega

/-- R107: the sum is at most 0x10FE, so nothing wraps. -/
theorem State.indexedTarget_toNat (s : State) (nnn : Addr) :
    (s.indexedTarget nnn).toNat = nnn.toNat + (s.getV 0).toNat := by
  have h := nnn.isLt
  have h' := (s.getV 0).isLt
  rw [State.indexedTarget, BitVec.toNat_add, zextAddr_toNat, zextByte_toNat]
  omega

/-- R152: at most 1275, so nothing wraps. -/
theorem glyphAddr_toNat (b : Byte) : (glyphAddr b).toNat = b.toNat * 5 := by
  have h := b.isLt
  rw [glyphAddr, BitVec.toNat_mul, zextByte_toNat]
  simp
  omega

@[simp] theorem bcdDigits_length (b : Byte) : (bcdDigits b).length = 3 := rfl

@[simp] theorem State.regBlock_length (s : State) (x : Nibble) : (s.regBlock x).length = x.toNat + 1 := by
  simp [State.regBlock]

/-- Entry `k` of the block is `V[k]` (R154). -/
theorem State.regBlock_getElem (s : State) (x : Nibble) (k : Nat) (h : k < (s.regBlock x).length) :
    (s.regBlock x)[k] = s.getV (BitVec.ofNat 4 k) := by
  simp [State.regBlock]

@[simp] theorem State.spriteRows_length (s : State) (n : Nibble) : (s.spriteRows n).length = n.toNat := by
  simp [State.spriteRows]

/-- A prefix of the scan of R193 finds the highest pressed key below its end. -/
theorem State.highestKey_fold (s : State) (n : Nat) (hn : n ≤ 16) :
    match (List.range n).foldl
        (fun found k => if s.key (BitVec.ofNat 4 k) then some (BitVec.ofNat 4 k) else found) (none : Option Nibble) with
    | some k => k.toNat < n ∧ s.key k = true ∧ ∀ j : Nibble, k.toNat < j.toNat → j.toNat < n → s.key j = false
    | none => ∀ j : Nibble, j.toNat < n → s.key j = false := by
  induction n with
  | zero => simp
  | succ n ih =>
    have ih := ih (by omega)
    have hk : (BitVec.ofNat 4 n).toNat = n := by rw [BitVec.toNat_ofNat]; omega
    have last : ∀ j : Nibble, j.toNat < n + 1 → ¬ j.toNat < n → j = BitVec.ofNat 4 n := fun j h h' =>
      BitVec.eq_of_toNat_eq (by omega)
    rw [List.range_succ, List.foldl_append, List.foldl_cons, List.foldl_nil]
    generalize (List.range n).foldl _ none = found at ih ⊢
    cases hp : s.key (BitVec.ofNat 4 n) with
    | true =>
      simp only [if_true]
      exact ⟨by omega, hp, fun j h h' => by omega⟩
    | false =>
      cases found with
      | none => exact fun j h => if h' : j.toNat < n then ih j h' else by rw [last j h h']; exact hp
      | some k =>
        exact ⟨by have := ih.1; omega, ih.2.1, fun j h h' =>
          if h'' : j.toNat < n then ih.2.2 j h h'' else by rw [last j h' h'']; exact hp⟩

/-- R193: no key is found exactly when none is pressed. -/
theorem State.highestKey_eq_none (s : State) : s.highestKey = none ↔ ∀ k, s.key k = false := by
  have h := s.highestKey_fold 16 (Nat.le_refl _)
  change (match s.highestKey with | some k => _ | none => _) at h
  constructor
  · intro e k
    rw [e] at h
    exact h k k.isLt
  · intro hk
    cases e : s.highestKey with
    | none => rfl
    | some k => rw [e] at h; simp [hk k] at h

/-- R193: the key found is the highest-numbered pressed one. -/
theorem State.highestKey_eq_some (s : State) (k : Nibble) :
    s.highestKey = some k ↔ s.key k = true ∧ ∀ j : Nibble, k.toNat < j.toNat → s.key j = false := by
  have h := s.highestKey_fold 16 (Nat.le_refl _)
  change (match s.highestKey with | some k => _ | none => _) at h
  constructor
  · intro e
    rw [e] at h
    exact ⟨h.2.1, fun j hj => h.2.2 j hj j.isLt⟩
  · rintro ⟨hk, hj⟩
    cases e : s.highestKey with
    | none => rw [e] at h; simp [h k k.isLt] at hk
    | some q =>
      rw [e] at h
      rcases Nat.lt_trichotomy q.toNat k.toNat with hlt | heq | hgt
      · simp [h.2.2 k hlt k.isLt] at hk
      · rw [BitVec.eq_of_toNat_eq heq]
      · simp [hj q hgt] at h

theorem flagByte_eq_zero_or_one (b : Bool) : flagByte b = 0 ∨ flagByte b = 1 := by cases b <;> decide

@[simp] theorem flagByte_eq_one (b : Bool) : flagByte b = 1 ↔ b = true := by cases b <;> decide

end Sys2Proof.Machine
end

