-- ==== Sys2Proof/Laws/PerInstr.lean ====
section
/-! SUPPORT. Statements for all instructions, per constructor: the encoded word stands in the instruction's row of the opcode
map (R63 with R73). -/

namespace Sys2Proof.Laws.TableRow

/-- The encoded word of `i` selects the row of the opcode map that `i` stands in. -/
def Statement (i : Instr) : Prop := encode i &&& (rowOf i).mask = (rowOf i).value

/-! What each mask keeps of a word of each format (R74). -/

theorem format_A (g : Nibble) (nnn : Addr) : encodeA g nnn &&& 0xF000#16 = encodeXYN g 0#4 0#4 0#4 := by
  rw [and_mask_F000, topNibble_encodeA]

theorem format_XI (g x : Nibble) (nn : Byte) : encodeXI g x nn &&& 0xF000#16 = encodeXYN g 0#4 0#4 0#4 := by
  rw [and_mask_F000, topNibble_encodeXI]

theorem format_XYN (g x y n : Nibble) : encodeXYN g x y n &&& 0xF000#16 = encodeXYN g 0#4 0#4 0#4 := by
  rw [and_mask_F000, topNibble_encodeXYN]

theorem format_XY (g x y n : Nibble) : encodeXYN g x y n &&& 0xF00F#16 = encodeXYN g 0#4 0#4 n := by
  rw [and_mask_F00F, topNibble_encodeXYN, fieldN_encodeXYN]

theorem format_XF (g x : Nibble) (nn : Byte) : encodeXI g x nn &&& 0xF0FF#16 = encodeXI g 0#4 nn := by
  rw [and_mask_F0FF, topNibble_encodeXI, fieldNN_encodeXI]

theorem cls : Statement .cls := by unfold Statement; decide

theorem ret : Statement .ret := by unfold Statement; decide

theorem jp (nnn : Addr) : Statement (.jp nnn) := (format_A _ _).trans rfl

theorem call (nnn : Addr) : Statement (.call nnn) := (format_A _ _).trans rfl

theorem seImm (x : Nibble) (nn : Byte) : Statement (.seImm x nn) := (format_XI _ _ _).trans rfl

theorem sneImm (x : Nibble) (nn : Byte) : Statement (.sneImm x nn) := (format_XI _ _ _).trans rfl

theorem seReg (x y : Nibble) : Statement (.seReg x y) := (format_XYN _ _ _ _).trans rfl

theorem ldImm (x : Nibble) (nn : Byte) : Statement (.ldImm x nn) := (format_XI _ _ _).trans rfl

theorem addImm (x : Nibble) (nn : Byte) : Statement (.addImm x nn) := (format_XI _ _ _).trans rfl

theorem ldReg (x y : Nibble) : Statement (.ldReg x y) := (format_XY _ _ _ _).trans rfl

theorem orReg (x y : Nibble) : Statement (.orReg x y) := (format_XY _ _ _ _).trans rfl

theorem andReg (x y : Nibble) : Statement (.andReg x y) := (format_XY _ _ _ _).trans rfl

theorem xorReg (x y : Nibble) : Statement (.xorReg x y) := (format_XY _ _ _ _).trans rfl

theorem addReg (x y : Nibble) : Statement (.addReg x y) := (format_XY _ _ _ _).trans rfl

theorem subReg (x y : Nibble) : Statement (.subReg x y) := (format_XY _ _ _ _).trans rfl

theorem shr (x : Nibble) : Statement (.shr x) := (format_XY _ _ _ _).trans rfl

theorem subnReg (x y : Nibble) : Statement (.subnReg x y) := (format_XY _ _ _ _).trans rfl

theorem shl (x : Nibble) : Statement (.shl x) := (format_XY _ _ _ _).trans rfl

theorem sneReg (x y : Nibble) : Statement (.sneReg x y) := (format_XYN _ _ _ _).trans rfl

theorem ldI (nnn : Addr) : Statement (.ldI nnn) := (format_A _ _).trans rfl

theorem jpV0 (nnn : Addr) : Statement (.jpV0 nnn) := (format_A _ _).trans rfl

theorem rnd (x : Nibble) (nn : Byte) : Statement (.rnd x nn) := (format_XI _ _ _).trans rfl

theorem drw (x y n : Nibble) : Statement (.drw x y n) := (format_XYN _ _ _ _).trans rfl

theorem skp (x : Nibble) : Statement (.skp x) := (format_XF _ _ _).trans rfl

theorem sknp (x : Nibble) : Statement (.sknp x) := (format_XF _ _ _).trans rfl

theorem ldVxDt (x : Nibble) : Statement (.ldVxDt x) := (format_XF _ _ _).trans rfl

theorem ldVxK (x : Nibble) : Statement (.ldVxK x) := (format_XF _ _ _).trans rfl

theorem ldDtVx (x : Nibble) : Statement (.ldDtVx x) := (format_XF _ _ _).trans rfl

theorem ldStVx (x : Nibble) : Statement (.ldStVx x) := (format_XF _ _ _).trans rfl

theorem addI (x : Nibble) : Statement (.addI x) := (format_XF _ _ _).trans rfl

theorem ldF (x : Nibble) : Statement (.ldF x) := (format_XF _ _ _).trans rfl

theorem ldB (x : Nibble) : Statement (.ldB x) := (format_XF _ _ _).trans rfl

theorem storeRegs (x : Nibble) : Statement (.storeRegs x) := (format_XF _ _ _).trans rfl

theorem loadRegs (x : Nibble) : Statement (.loadRegs x) := (format_XF _ _ _).trans rfl

end Sys2Proof.Laws.TableRow
end

