-- ==== Sys2Proof/Tests/Slice0.lean ====
section
/-! SUPPORT. The model's own tests. Expected results are those of spec/95_test_vectors.md (the vector's id stands in each
comment) or of the rule named. Each runs one step on a small state. The last part shows, for every statement with hypotheses,
a state and operands that meet them together. -/

namespace Sys2Proof.Tests

open Sys2Proof Sys2Proof.Machine

/-- A field of the next state, if there is one. -/
def after {α : Type} (o : Host.Outcome State Fault Refusal) (f : State → α) : Option α :=
  match o with
  | .next s => some (f s)
  | _ => none

/-- The state after reset with some registers set. -/
def regs (l : List (Nibble × Byte)) : State := l.foldl (fun s p => s.setV p.1 p.2) State.reset

/-- One step on `op` placed at `pc`. -/
def run (op : Word) (s : State) : Host.Outcome State Fault Refusal := step (s.placeWord op)

/-- Two bytes at an address. -/
def withMem (s : State) (a : Nat) (l : List Byte) : State := s.setMem (memWriteBytes s.mem a l)

/-! ### WellFormed: an ill-formed term for each check -/

-- R242: 3585 bytes are too many, 3584 are not
theorem test_rom_3585_refused : romWellFormed (List.replicate 3585 0) = false := by
  unfold romWellFormed
  rw [List.length_replicate]
  decide
theorem test_rom_3584_accepted : romWellFormed (List.replicate 3584 0) = true := by
  unfold romWellFormed
  rw [List.length_replicate]
  decide
-- R70: words that are no assembler's spelling, one for each check
theorem test_word_not_canonical :
    wordCanonical 0x0000 = false ∧ wordCanonical 0x0A3E = false ∧ wordCanonical 0x512F = false ∧
    wordCanonical 0x8126 = false ∧ wordCanonical 0x812E = false ∧ wordCanonical 0x9127 = false ∧
    wordCanonical 0xF318 = false := by decide
theorem test_word_canonical :
    wordCanonical 0x00E0 = true ∧ wordCanonical 0x00EE = true ∧ wordCanonical 0x5120 = true ∧
    wordCanonical 0x8106 = true ∧ wordCanonical 0x810E = true ∧ wordCanonical 0x9120 = true ∧
    wordCanonical 0xF018 = true ∧ wordCanonical 0xF315 = true := by decide

/-! ### Decode: one word for each constructor, written out from its pattern and fields (30_encoding.md section 5, 95 2.1) -/

theorem test_decode_group0 :
    decode 0x00E0 = .instr .cls ∧ decode 0x0000 = .instr .cls ∧ decode 0x0120 = .instr .cls ∧ decode 0x0FF0 = .instr .cls ∧
    decode 0x00EE = .instr .ret ∧ decode 0x0A3E = .instr .ret ∧ decode 0x000E = .instr .ret := by decide
theorem test_decode_flow :
    decode 0x1ABC = .instr (.jp 0xABC) ∧ decode 0x2204 = .instr (.call 0x204) ∧ decode 0x3A42 = .instr (.seImm 0xA 0x42) ∧
    decode 0x4A42 = .instr (.sneImm 0xA 0x42) ∧ decode 0x5120 = .instr (.seReg 1 2) ∧ decode 0x512F = .instr (.seReg 1 2) ∧
    decode 0x9127 = .instr (.sneReg 1 2) ∧ decode 0xB300 = .instr (.jpV0 0x300) := by decide
theorem test_decode_alu :
    decode 0x6FAB = .instr (.ldImm 0xF 0xAB) ∧ decode 0x7302 = .instr (.addImm 3 2) ∧ decode 0x8120 = .instr (.ldReg 1 2) ∧
    decode 0x8121 = .instr (.orReg 1 2) ∧ decode 0x8122 = .instr (.andReg 1 2) ∧ decode 0x8123 = .instr (.xorReg 1 2) := by
  decide
theorem test_decode_alu_flags :
    decode 0x8124 = .instr (.addReg 1 2) ∧ decode 0x8125 = .instr (.subReg 1 2) ∧ decode 0x8126 = .instr (.shr 1) ∧
    decode 0x8106 = .instr (.shr 1) ∧ decode 0x8127 = .instr (.subnReg 1 2) ∧ decode 0x812E = .instr (.shl 1) ∧
    decode 0xC20F = .instr (.rnd 2 0x0F) := by decide
theorem test_decode_index :
    decode 0xAFFF = .instr (.ldI 0xFFF) ∧ decode 0xF21E = .instr (.addI 2) ∧ decode 0xF429 = .instr (.ldF 4) ∧
    decode 0xF033 = .instr (.ldB 0) ∧ decode 0xF255 = .instr (.storeRegs 2) ∧ decode 0xF165 = .instr (.loadRegs 1) := by decide
theorem test_decode_display_keys :
    decode 0xD01F = .instr (.drw 0 1 15) ∧ decode 0xE19E = .instr (.skp 1) ∧ decode 0xE1A1 = .instr (.sknp 1) ∧
    decode 0xF107 = .instr (.ldVxDt 1) ∧ decode 0xF60A = .instr (.ldVxK 6) ∧ decode 0xF015 = .instr (.ldDtVx 0) ∧
    decode 0xF318 = .instr (.ldStVx 3) := by decide
-- 95 2.1: the unknown words
theorem test_decode_unknown_0_8 :
    decode 0x0001 = .unknown .group0 ∧ decode 0x00EF = .unknown .group0 ∧ decode 0x0FFD = .unknown .group0 ∧
    decode 0x8008 = .unknown .group8 ∧ decode 0x812F = .unknown .group8 ∧ decode 0x8FFD = .unknown .group8 := by decide
theorem test_decode_unknown_e :
    decode 0xE000 = .unknown .groupE ∧ decode 0xE19F = .unknown .groupE ∧ decode 0xE1A0 = .unknown .groupE ∧
    decode 0xE10E = .unknown .groupE ∧ decode 0xE1EE = .unknown .groupE := by decide
theorem test_decode_unknown_f :
    decode 0xF000 = .unknown .groupF ∧ decode 0xF175 = .unknown .groupF ∧ decode 0xF10B = .unknown .groupF ∧
    decode 0xF1FF = .unknown .groupF ∧ decode 0xF185 = .unknown .groupF := by decide
-- R73's example, and the canonical words of R70
theorem test_encode :
    encode (.ldImm 0 5) = 0x6005 ∧ encode .cls = 0x00E0 ∧ encode .ret = 0x00EE ∧ encode (.shr 1) = 0x8106 ∧
    encode (.drw 0 1 15) = 0xD01F ∧ encode (.loadRegs 1) = 0xF165 := by decide
-- R44: 0x60 stands at the lower address
theorem test_decode_bytes : decodeBytes 0x60 0x05 = .instr (.ldImm 0 5) := by decide
theorem test_table_word : decodeTableWord 16 0x6005 = some (.ldImm 0 5) ∧ decodeTableWord 16 0x8008 = none := by decide
theorem test_fetch_word : after (step (State.reset.withFetchWord 16 0x6A55)) (fun t => t.getV 0xA) = some 0x55 := by decide

/-! ### Control transfer -/

-- S1: from reset with nothing loaded, the word 0x0000 clears the screen
theorem test_step_from_reset : after (step State.reset) (fun t => (t.pc, t.drawFlag)) = some (514, true) := by decide
-- F5, F7: the pop and the 16-bit wrap
theorem test_ret_wraps :
    after (run 0x00EE { State.reset with sp := 1, stack := State.reset.stack.set 0 0xFFFE }) (fun t => (t.pc, t.sp)) =
      some (0x0000, 0) := by decide
-- F6
theorem test_ret_underflow :
    after (run 0x00EE { State.reset with dt := 9 }) (fun t => (t.fault, t.pc, t.sp, t.dt)) =
      some (.stackUnderflow, 0x0200, 0, 9) := by decide
-- F1
theorem test_jp : after (run 0x1ABC State.reset) State.pc = some 0x0ABC := by decide
-- F3
theorem test_call_at_47 :
    after (run 0x2ABC { State.reset with sp := 47 }) (fun t => (t.pc, t.sp, t.stack[47])) = some (0x0ABC, 48, 0x0200) := by
  decide
-- F4
theorem test_call_at_48 :
    after (run 0x2ABC { State.reset with sp := 48 }) (fun t => (t.fault, t.pc, t.sp)) = some (.stackOverflow, 0x0200, 48) := by
  decide
-- F8, F9
theorem test_se_imm :
    after (run 0x3A42 (regs [(0xA, 0x42)])) State.pc = some 0x0204 ∧
    after (run 0x3A42 (regs [(0xA, 0x43)])) State.pc = some 0x0202 := by decide
-- F10, F11
theorem test_sne_imm :
    after (run 0x4A42 (regs [(0xA, 0x42)])) State.pc = some 0x0202 ∧
    after (run 0x4A42 (regs [(0xA, 0x43)])) State.pc = some 0x0204 := by decide
-- F13, F14
theorem test_se_reg :
    after (run 0x512F (regs [(1, 9), (2, 8)])) State.pc = some 0x0202 ∧
    after (run 0x512F (regs [(1, 9), (2, 9)])) State.pc = some 0x0204 := by decide
-- F16, F17
theorem test_sne_reg :
    after (run 0x9120 (regs [(1, 9), (2, 9)])) State.pc = some 0x0202 ∧
    after (run 0x9127 (regs [(1, 9), (2, 8)])) State.pc = some 0x0204 := by decide
-- F19: not reduced to 12 bits
theorem test_jp_v0 : after (run 0xBFFF (regs [(0, 0xFF)])) State.pc = some 0x10FE := by decide
-- Q3: pc + 4 mod 65536, the fetch address mod 4096
theorem test_skip_wraps : after (run 0x3000 { State.reset with pc := 0xFFFE }) State.pc = some 0x0002 := by decide
-- Q5: pc keeps its 16 bits
theorem test_fetch_reduces_only_the_address :
    after (step (withMem { State.reset with pc := 0x1200 } 0x200 [0x6A, 0x07])) (fun t => (t.getV 0xA, t.pc)) =
      some (7, 0x1202) := by decide

/-! ### The ALU -/

-- A1, A2
theorem test_ld_imm : after (run 0x6FAB State.reset) (fun t => t.getV 0xF) = some 0xAB := by decide
theorem test_add_imm_no_carry : after (run 0x7F02 (regs [(0xF, 0xFF)])) (fun t => t.getV 0xF) = some 0x01 := by decide
-- A4
theorem test_ld_reg : after (run 0x8120 (regs [(1, 1), (2, 0xEE)])) (fun t => (t.getV 1, t.getV 2)) = some (0xEE, 0xEE) := by decide
-- A6, A7, A8
theorem test_or : after (run 0x8121 (regs [(1, 0x55), (2, 0xAA), (15, 7)])) (fun t => (t.getV 1, t.getV 15)) = some (0xFF, 7) := by
  decide
theorem test_and : after (run 0x8122 (regs [(1, 0x5F), (2, 0xFA), (15, 7)])) (fun t => (t.getV 1, t.getV 15)) = some (0x5A, 7) := by
  decide
theorem test_xor : after (run 0x8123 (regs [(1, 0xFF), (2, 0x0F), (15, 7)])) (fun t => (t.getV 1, t.getV 15)) = some (0xF0, 7) := by
  decide
-- A10, A13
theorem test_add_carry : after (run 0x8124 (regs [(1, 0xFF), (2, 1)])) (fun t => (t.getV 1, t.getV 15)) = some (0, 1) := by decide
theorem test_add_flag_wins : after (run 0x8F14 (regs [(15, 0xF0), (1, 0x20)])) (fun t => t.getV 15) = some 1 := by decide
-- A16, A20
theorem test_sub_equal : after (run 0x8125 (regs [(1, 5), (2, 5)])) (fun t => (t.getV 1, t.getV 15)) = some (0, 1) := by decide
theorem test_sub_y_is_f : after (run 0x81F5 (regs [(1, 5), (15, 6)])) (fun t => (t.getV 1, t.getV 15)) = some (0xFF, 0) := by decide
-- A21, A24
theorem test_shr :
    after (run 0x8126 (regs [(1, 1), (2, 0xFF)])) (fun t => (t.getV 1, t.getV 15, t.getV 2)) = some (0, 1, 0xFF) := by decide
theorem test_shr_flag_wins : after (run 0x8FA6 (regs [(15, 2)])) (fun t => t.getV 15) = some 0 := by decide
-- A26, A28
theorem test_subn_borrow : after (run 0x8127 (regs [(1, 1), (15, 1)])) (fun t => (t.getV 1, t.getV 15)) = some (0xFF, 0) := by decide
theorem test_subn_y_is_f : after (run 0x81F7 (regs [(1, 3), (15, 5)])) (fun t => (t.getV 1, t.getV 15)) = some (2, 1) := by decide
-- A29, A32
theorem test_shl :
    after (run 0x812E (regs [(1, 0x80), (2, 0xFF)])) (fun t => (t.getV 1, t.getV 15, t.getV 2)) = some (0, 1, 0xFF) := by decide
theorem test_shl_flag_wins : after (run 0x8F0E (regs [(15, 1)])) (fun t => t.getV 15) = some 0 := by decide
-- A36: the byte drawn is free; every bit outside the mask is 0 (R131)
theorem test_rnd_masked : after (run 0xC20F State.reset) (fun t => t.getV 2 &&& 0xF0) = some 0 := by
  show some ((Config.rnd 0 &&& 0x0F#8) &&& 0xF0#8) = some 0#8
  rw [BitVec.and_assoc]
  simp

/-! ### Index register and memory -/

-- M1, M3, M7
theorem test_ld_i : after (run 0xAFFF State.reset) State.index = some 0x0FFF := by decide
theorem test_add_i_wraps : after (run 0xF11E { regs [(1, 2)] with index := 0xFFFF }) State.index = some 0x0001 := by decide
theorem test_ld_f_no_mask : after (run 0xF129 (regs [(1, 0xFF)])) State.index = some 0x04FB := by decide
-- M10: the address is reduced, I is not
theorem test_bcd :
    after (run 0xF133 { regs [(1, 107)] with index := 0x1300 })
      (fun t => (memRead t.mem 0x300, memRead t.mem 0x301, memRead t.mem 0x302, t.index)) = some (1, 0, 7, 0x1300) := by decide
-- M11
theorem test_store_one :
    after (run 0xF055 { regs [(0, 0xAA), (1, 0xBB)] with index := 0x400 })
      (fun t => (memRead t.mem 0x400, memRead t.mem 0x401)) = some (0xAA, 0) := by decide
-- the rule's example (R154)
theorem test_store_three :
    after (run 0xF255 { regs [(0, 1), (1, 2), (2, 3)] with index := 0x400 })
      (fun t => (memRead t.mem 0x400, memRead t.mem 0x401, memRead t.mem 0x402, t.index)) = some (1, 2, 3, 0x400) := by decide
-- M13
theorem test_load :
    after (run 0xF265 (withMem { regs [(3, 0x77)] with index := 0x300 } 0x300 [1, 2, 3, 4]))
      (fun t => (t.getV 0, t.getV 1, t.getV 2, t.getV 3, t.index)) = some (1, 2, 3, 0x77, 0x300) := by decide
-- M15: the first fontset byte, whatever it is; 0xF0 with the default table of G1
theorem test_load_font : after (run 0xF065 State.reset) (fun t => t.getV 0) = some (Config.fontset 0) := rfl
theorem test_default_font (h : Config.HasDefaultFont) : memRead State.reset.mem 0 = 0xF0 := h 0 (by decide)
-- writing what an unlisted address reads as removes the entry, so equal memories are equal data
theorem test_memory_canonical :
    memWrite (memWrite (memWrite [] 600 1) 500 2) 600 0 = [(500, 2)] ∧ Memory.wf [(500, 2)] = true ∧
    Memory.wf [(600, 1), (500, 2)] = false ∧ Memory.wf [(500, 0)] = false ∧ Memory.wf [(4096, 1)] = false := by decide

/-! ### Display -/

-- D1
theorem test_cls :
    after (run 0x00E0 { regs [(15, 1)] with fb := fbWrite (fbWrite State.reset.fb 5 true) 2047 true })
      (fun t => (fbRead t.fb 5, fbRead t.fb 2047, t.getV 15, t.drawFlag)) = some (false, false, 1, true) := by decide
-- D3: column 64 of row 0 is column 0 of row 1
theorem test_draw_aliases :
    after (run 0xD011 (withMem { regs [(0, 62)] with index := 0x300 } 0x300 [0xF0]))
      (fun t => ([61, 62, 63, 64, 65, 66].map (fbRead t.fb), t.getV 15)) =
      some ([false, true, true, true, true, false], 0) := by decide
-- D5: the collision
theorem test_draw_collides :
    after (run 0xD011 (withMem { State.reset with index := 0x300, fb := fbWrite (fbWrite State.reset.fb 3 true) 200 true }
        0x300 [0xFF]))
      (fun t => ([0, 3, 7, 8, 200].map (fbRead t.fb), t.getV 15, t.drawFlag)) =
      some ([true, false, true, false, true], 1, true) := by decide

/-! ### Keys and timer -/

-- K1, K2
theorem test_skp :
    after (run 0xE19E ((regs [(1, 0x1A)]).writeKey 0xA true)) State.pc = some 0x0204 ∧
    after (run 0xE19E (regs [(1, 0x0A)])) State.pc = some 0x0202 := by decide
-- K4, K5
theorem test_sknp :
    after (run 0xE1A1 (regs [(1, 0xFF)])) State.pc = some 0x0204 ∧
    after (run 0xE1A1 ((regs [(1, 0xFF)]).writeKey 0xF true)) State.pc = some 0x0202 := by decide
-- K8
theorem test_read_timer :
    after (run 0xF107 { State.reset with dt := 0x1234 }) (fun t => (t.getV 1, t.dt)) = some (0x34, 0x1233) := by decide
-- K9, K11
theorem test_wait_no_key :
    after (run 0xF10A { regs [(1, 7)] with dt := 2 }) (fun t => (t.pc, t.getV 1, t.dt)) = some (0x0200, 7, 1) := by decide
theorem test_wait_two_keys :
    after (run 0xF10A (((regs [(1, 7)]).writeKey 0 true).writeKey 0xF true)) (fun t => (t.pc, t.getV 1)) = some (0x0202, 0xF) := by
  decide
-- K15
theorem test_set_timer : after (run 0xF115 { regs [(1, 255)] with dt := 7 }) State.dt = some 254 := by decide
-- K16
theorem test_sound_no_op :
    after (run 0xFF18 { regs [(15, 3)] with dt := 5 }) (fun t => (t.pc, t.getV 15, t.dt)) = some (0x0202, 3, 4) ∧
    ((regs [(15, 3)]).placeWord 0xFF18).report = none := by decide

/-! ### Unknown opcodes, faults, the host -/

-- 95 2.7
theorem test_unknown :
    after (run 0x8008 { regs [(15, 1)] with dt := 3 }) (fun t => (t.pc, t.dt, t.getV 15, t.fault)) = some (0x0202, 2, 1, .none) ∧
    (State.reset.placeWord 0x8008).report = some 0x8008 := by decide
-- X3: a halted step changes nothing
theorem test_halted :
    after (step { State.reset with fault := .stackUnderflow, dt := 9 }) (fun t => (t.dt, t.pc)) = some (9, 0x0200) := by decide
-- S2 through the host's commands, and R243's order
theorem test_load_then_step :
    (match Session.start.move (.load [0x60, 0x05]) with
     | some (b, _) => (b.move .step).map fun p => (p.1.core.getV 0, p.1.core.pc, p.2)
     | none => none) = some (5, 514, .stepped none) := by decide
theorem test_step_before_load : Session.start.move .step = none := by decide

/-! ### Witnesses: hypotheses of the statements, met together -/

-- StepRunsTheDecodedInstruction: a halted core, a decoded instruction that goes on, one that faults, and an unknown opcode
theorem witness_step :
    ({ State.reset with fault := .stackOverflow } : State).fault ≠ .none ∧
    (State.reset.fault = .none ∧
      decode (memRead State.reset.mem State.reset.pc.toNat ++ memRead State.reset.mem (State.reset.pc + 1).toNat) = .instr .cls ∧
      after (exec .cls State.reset) State.fault = some .none) ∧
    ((State.reset.placeWord 0x00EE).fetched = .instr .ret ∧
      after (exec .ret (State.reset.placeWord 0x00EE)) State.fault = some .stackUnderflow) ∧
    ((State.reset.placeWord 0xFFFF).fault = .none ∧ (State.reset.placeWord 0xFFFF).fetched = .unknown .groupF) := by decide
-- and one whose rule answers the model's own stop (log entry 5); no rule is refused
theorem witness_step_stop :
    (({ State.reset with sp := 49 } : State).placeWord 0x00EE).fetched = .instr .ret ∧
    exec .ret (({ State.reset with sp := 49 } : State).placeWord 0x00EE) = .fault .noStackEntry := ⟨by decide, rfl⟩

-- StoreIsSeenByTheNextFetch (program P6 of 95)
theorem witness_store_fetch :
    ∃ s : State, s.mem.wf = true ∧ (1 : Nibble) ≠ 0 ∧ s.index.toNat % 4096 = (s.pc.toNat + 2) % 4096 ∧ s.fault = .none ∧
      s.fetched = .instr (.storeRegs 1) :=
  ⟨({ regs [(0, 0x12), (1, 0x08)] with index := 0x202 } : State).placeWord 0xF155, by decide⟩

-- DecodeOfEncodeIsTheInstruction
theorem witness_well_formed : (Instr.drw 15 15 15).wellFormed = true := by decide

-- DecoderFollowsTheOpcodeMap, UnknownOpcodesAreThoseOfTheTable
theorem witness_map :
    decode 0xF165 = .instr (.loadRegs 1) ∧ rowOf (.loadRegs 1) ∈ opcodeMap ∧
    0xF165#16 &&& (rowOf (.loadRegs 1)).mask = (rowOf (.loadRegs 1)).value := by decide

-- IgnoredBitsChangeNothing, one word for each clause
theorem witness_ignored_bits :
    (0x0FF0#16).toNat / 4096 = 0 ∧ (0x512F#16).toNat / 4096 = 5 ∧ (0x9127#16).toNat / 4096 = 9 ∧
    ((0x8126#16).toNat / 4096 = 8 ∧ (0x8126#16).toNat % 16 = 6) ∧ (0x812E#16).toNat % 16 = 14 := by decide

-- the Selects clauses: a word for a mask of each kind
theorem witness_selects :
    0x1ABC#16 &&& 0xF000 = 0x1000 ∧ 0x8126#16 &&& 0xF00F = 0x8006 ∧ 0x0A3E#16 &&& 0xF00F = 0x000E ∧
    0xF165#16 &&& 0xF0FF = 0xF065 := by decide

-- ReturnPopsAndAddsTwo at the top and the bottom of the stack, and its empty stack; ReturnBeyondTheStackStops
theorem witness_return :
    ({ State.reset with sp := 48 } : State).sp.toNat = (47 : Fin 48).val + 1 ∧
    ({ State.reset with sp := 1 } : State).sp.toNat = (0 : Fin 48).val + 1 ∧ State.reset.sp = 0 ∧
    48 < ({ State.reset with sp := 49 } : State).sp.toNat := by decide

-- JumpLoadsTheTarget: a jump to itself (F2)
theorem witness_self_jump :
    (State.reset.placeWord 0x1200).fault = .none ∧ (State.reset.placeWord 0x1200).fetched = .instr (.jp 0x200) ∧
    (State.reset.placeWord 0x1200).pc = (0x200 : Addr).setWidth 16 := by decide

-- CallPushesItsOwnAddress with an empty, an almost full and a full stack; CallThenReturnResumesAfterTheCall
theorem witness_call :
    State.reset.sp.toNat = (0 : Fin 48).val ∧ ({ State.reset with sp := 47 } : State).sp.toNat = (47 : Fin 48).val ∧
    ({ State.reset with sp := 48 } : State).sp.toNat = 48 ∧ State.reset.sp.toNat < 48 := by decide

-- BcdStoresThreeDigits, BlockStoreWritesV0ToVx, LoadCopiesTheRom: a canonical memory
theorem witness_memory : State.reset.mem.wf = true ∧ ([0x60, 0x05] : List Byte).length ≤ 3584 := by decide
-- LoadCopiesTheRom at its longest and its shortest ROM
theorem witness_rom_bounds : (List.replicate 3584 (0 : Byte)).length ≤ 3584 ∧ ([] : List Byte).length ≤ 3584 :=
  ⟨by rw [List.length_replicate], by decide⟩

-- BlockStoreWritesV0ToVx: an address outside the block
theorem witness_block_outside :
    ∀ k, k ≤ (2 : Nibble).toNat → 0x403 % 4096 ≠ (({ State.reset with index := 0x400 } : State).index.toNat + k) % 4096 := by
  decide

-- DrawTogglesTheSpriteCells: a sprite bit; DrawCollisionAndSelfInverse: two draws with x and y not F
theorem witness_draw :
    Claims.SpriteBit (withMem { State.reset with index := 0x300 } 0x300 [0xC0]) 1 0 1 ∧ (0 : Nibble) ≠ 0xF ∧
    after (exec (.drw 0 1 1) (withMem { State.reset with index := 0x300 } 0x300 [0xC0])) (fun t => fbRead t.fb 1) =
      some true := by
  unfold Claims.SpriteBit
  decide

-- WaitForKeyTakesTheHighest: keys 3 and 9 pressed (the rule's example), and none
theorem witness_keys :
    (((State.reset.writeKey 3 true).writeKey 9 true).keys[(9 : Fin 16)] = true ∧
      ∀ j : Fin 16, 9 < j → ((State.reset.writeKey 3 true).writeKey 9 true).keys[j] = false) ∧
    (∀ k : Fin 16, State.reset.keys[k] = false) ∧
    (State.reset.placeWord 0xF60A).fault = .none ∧ (State.reset.placeWord 0xF60A).fetched = .instr (.ldVxK 6) := by decide

-- ReadTimerBeforeTheTick, SetTimerIsTickedAtOnce, SoundTimerLoadIsNoOperation
theorem witness_timer :
    (State.reset.placeWord 0xF107).fault = .none ∧ (State.reset.placeWord 0xF107).fetched = .instr (.ldVxDt 1) ∧
    (State.reset.placeWord 0xF015).fetched = .instr (.ldDtVx 0) ∧ (State.reset.placeWord 0xF318).fetched = .instr (.ldStVx 3) := by
  decide

-- UnknownOpcodeIsReportedAndSkipped
theorem witness_unknown :
    (State.reset.placeWord 0x0001).fault = .none ∧ decode (State.reset.placeWord 0x0001).fetch = .unknown .group0 ∧
    (State.reset.placeWord 0x0001).report = some 0x0001 := by decide

-- FaultChangesOnlyTheFaultRegister, FaultsAreTheTwoOfTheStack: both faults are raised
theorem witness_faults :
    after (run 0x00EE State.reset) State.fault = some .stackUnderflow ∧ State.reset.sp.toNat ≤ 48 ∧
    after (run 0x2ABC { State.reset with sp := 48 }) State.fault = some .stackOverflow ∧
    ({ State.reset with fault := .stackUnderflow } : State).fault ≠ .none := by decide

-- FaultIsClearedByResetAlone: a halted session, and moves that answer
theorem witness_fault_session :
    (⟨{ State.reset with fault := .stackUnderflow }, .running⟩ : Session).core.fault ≠ .none ∧
    ((⟨{ State.reset with fault := .stackUnderflow }, .running⟩ : Session).move .reset).isSome = true ∧
    ((⟨{ State.reset with fault := .stackUnderflow }, .running⟩ : Session).move .step).isSome = true ∧ Move.step ≠ .reset := by
  decide

-- ProgramCounterRule, DelayTimerTicksOncePerStep, the rules over exec: a step that answers without a fault
theorem witness_exec_next :
    after (exec (.addReg 1 2) State.reset) State.fault = some .none ∧
    after (run 0x8124 State.reset) State.fault = some .none ∧
    after (run 0x8008 State.reset) State.fault = some .none ∧ (State.reset.placeWord 0x8008).fetched = .unknown .group8 ∧
    (State.reset.placeWord 0xF115).fetched = .instr (.ldDtVx 1) := by decide

-- RegistersWrittenAreThoseOfTheTable, FlagIsWrittenBySixInstructions, MemoryIsWrittenByTwoInstructions
theorem witness_tables :
    ¬ Claims.MayWrite (.addReg 1 2) 3 ∧ Claims.WritesFlag (.addReg 1 2) ∧ ¬ Claims.WritesFlag (.ldImm 1 2) ∧
    ¬ Claims.MayWrite (.ldImm 1 2) 0xF ∧ Instr.ldImm 1 2 ≠ .ldB 1 ∧ Instr.ldImm 1 2 ≠ .storeRegs 1 := by
  unfold Claims.MayWrite Claims.WritesFlag
  decide

-- DelayTimerCountsSteps: one step that does not load the timer
theorem witness_count :
    after (core.run 1 ({ State.reset with dt := 5 } : State)) (fun t => (State.fault t, State.dt t)) = some (.none, 4) ∧
    (({ State.reset with dt := 5 } : State).fetched = .instr .cls) := by decide

-- EveryStepKeepsTheInvariant, ReadTimerBeforeTheTick: a state with the invariant, and its step
theorem witness_invariant : State.reset.Inv ∧ after (step State.reset) State.pc = some 514 :=
  ⟨⟨by decide, by decide, by decide⟩, by decide⟩

-- AssemblerFillsTheIgnoredBits: words that differ in ignored bits alone, and the word an assembler writes (R70)
theorem witness_assembler :
    decode 0xF318 = .instr (.ldStVx 3) ∧ 0xF318#16 &&& ~~~ignoredBits (.ldStVx 3) = 0xF018#16 &&& ~~~ignoredBits (.ldStVx 3) ∧
    decode 0x812E = .instr (.shl 1) ∧ 0x812E#16 &&& ~~~ignoredBits (.shl 1) = 0x810E#16 &&& ~~~ignoredBits (.shl 1) ∧
    Instr.shl 1 ≠ .ldStVx 1 := by decide
theorem test_assemble :
    assemble (.ldStVx 3) = 0xF018 ∧ assemble (.shl 1) = 0x810E ∧ assemble (.seReg 1 2) = 0x5120 ∧ assemble .ret = 0x00EE ∧
    assemble .cls = 0x00E0 ∧ assemble (.ldDtVx 3) = 0xF315 := by decide

-- EveryHostMoveKeepsTheInvariant: a load, a step and a reset that answer, from cores with the invariant
theorem witness_host_moves :
    Session.start.core.Inv ∧ (Session.start.move (.load [0x60, 0x05])).isSome = true ∧
    ((⟨State.reset, .loaded⟩ : Session).move .step).isSome = true ∧ (Session.start.move .reset).isSome = true :=
  ⟨⟨by decide, by decide, by decide⟩, by decide, by decide, by decide⟩

-- EveryReachableSessionMeetsTheInvariant: a session beyond the first
theorem witness_reachable : Session.Reachable ⟨State.reset, .loaded⟩ :=
  Session.Reachable.move (m := .load []) (r := .done) Session.Reachable.start (by decide)

-- EveryStepAnswersANextState at the top of the range, and a halted core above it
theorem witness_answers :
    ({ State.reset with sp := 48 } : State).sp.toNat ≤ 48 ∧
    ({ State.reset with sp := 63, fault := .stackOverflow } : State).fault ≠ .none := by decide

-- StatesNoStepCanChange, each way
theorem witness_fixed :
    ((State.reset.placeWord 0x1200).fetched = .instr (.jp 0x200) ∧ (State.reset.placeWord 0x1200).dt = 0) ∧
    ((State.reset.placeWord 0xF10A).fetched = .instr (.ldVxK 1) ∧ ∀ k : Fin 16, (State.reset.placeWord 0xF10A).keys[k] = false) ∧
    (State.reset.placeWord 0xB200).fetched = .instr (.jpV0 0x200) := by decide

-- OversizeLoadLeavesTheCoreUnmodified, HostKeepsTheBootOrder
theorem witness_host :
    3584 < (List.replicate 3585 (0 : Byte)).length ∧ Session.start.phase ≠ .running ∧
    (⟨State.reset, .running⟩ : Session).phase = .running ∧ (⟨State.reset, .loaded⟩ : Session).phase ≠ .fresh := by
  refine ⟨by rw [List.length_replicate]; decide, by decide, by decide, by decide⟩

end Sys2Proof.Tests
end

section
/-! ## Whole-machine rules (spec/10_state.md)

Three layers: what each instruction and each step may change (`exec_frame`, `step_of_fault`), the invariant of R34 through
`exec`, the end of a step and the host's moves, and the obligations of the family assembled from them. -/

namespace Sys2Proof.Machine

open Sys2Proof.Claims

/-! ### The halted core, the tick and the unknown opcode -/

theorem State.halted_eq_true {s : State} : s.halted = true ↔ s.fault ≠ .none := by simp [State.halted]

theorem State.halted_eq_false {s : State} : s.halted = false ↔ s.fault = .none := by simp [State.halted]

/-- The model's tick is the tick of the claims (R21). -/
theorem State.tick_eq_ticked (s : State) : s.tick = ticked s := s.tick_eq

/-- R211: an unknown opcode's own rule moves `pc` and nothing else. -/
theorem State.unknownOpcode_eq (s : State) : s.unknownOpcode = { s with pc := s.pc + 2 } := rfl

/-- The end of a step never raises the delay timer (R21). -/
theorem State.endStep_dt_le (s : State) : s.endStep.dt.toNat ≤ s.dt.toNat := by
  by_cases h : s.fault = .none
  · rw [s.endStep_running h, s.tick_dt_toNat]; omega
  · rw [s.endStep_halted h]

/-! ### The three ways a step goes (R33) -/

/-- R216: a halted core's step changes nothing. -/
theorem step_of_halted {s : State} (h : s.fault ≠ .none) : step s = .next s := by
  simp [step, State.halted_eq_true.mpr h]

/-- R33: the decoded instruction's rule, then the end of the step. -/
theorem step_of_instr {s : State} {i : Instr} (h : s.fault = .none) (hi : s.fetched = .instr i) :
    step s = endOutcome (exec i s) := by
  simp [step, State.halted_eq_false.mpr h, hi]

/-- R211: an unknown opcode moves `pc` by 2, and the step ticks. -/
theorem step_of_unknown {s : State} {g : UnknownGroup} (h : s.fault = .none) (hg : s.fetched = .unknown g) :
    step s = .next (ticked { s with pc := s.pc + 2 }) := by
  have hs : step s = .next s.unknownOpcode.endStep := by simp [step, State.halted_eq_false.mpr h, hg, endOutcome]
  rw [hs, State.endStep_running _ (show s.unknownOpcode.fault = .none from h), State.tick_eq_ticked,
    State.unknownOpcode_eq]

/-! ### The frame of each instruction -/

/-- `s` with the fields that instruction `i` may write taken from `t`: the state the rules of R100 to R195 leave, but for the
values they write. -/
def frame (i : Instr) (s t : State) : State :=
  match i with
  | .jp _ | .jpV0 _ | .seImm _ _ | .sneImm _ _ | .seReg _ _ | .sneReg _ _ | .skp _ | .sknp _ | .ldStVx _ =>
    { s with pc := t.pc }
  | .ldI _ | .addI _ | .ldF _ => { s with index := t.index, pc := t.pc }
  | .ldB _ | .storeRegs _ => { s with mem := t.mem, pc := t.pc }
  | .ldDtVx _ => { s with dt := t.dt, pc := t.pc }
  | .cls => { s with fb := t.fb, drawFlag := true, pc := t.pc }
  | .drw _ _ _ => { s with v := t.v, fb := t.fb, drawFlag := true, pc := t.pc }
  | .ret => { s with sp := t.sp, pc := t.pc, fault := t.fault }
  | .call _ => { s with stack := t.stack, sp := t.sp, pc := t.pc, fault := t.fault }
  | .rnd _ _ => { s with v := t.v, pc := t.pc, draws := t.draws }
  | .ldImm _ _ | .addImm _ _ | .ldReg _ _ | .orReg _ _ | .andReg _ _ | .xorReg _ _ | .addReg _ _ | .subReg _ _
  | .subnReg _ _ | .shr _ | .shl _ | .ldVxDt _ | .ldVxK _ | .loadRegs _ => { s with v := t.v, pc := t.pc }

/-- No instruction changes a field outside its frame. -/
theorem exec_frame {i : Instr} {s t : State} (h : exec i s = .next t) : t = frame i s t := by
  cases i with
  | ret => obtain ⟨-, rfl⟩ | ⟨-, a, -, rfl⟩ := execRet_cases h <;> rfl
  | call nnn => obtain ⟨-, rfl⟩ | ⟨-, rfl⟩ := execCall_cases h <;> rfl
  | ldVxK x => obtain ⟨k, -, rfl⟩ | ⟨-, rfl⟩ := execLdVxK_cases h <;> rfl
  | loadRegs x =>
    obtain rfl := Host.Outcome.next.inj h
    rw [s.loadBlock_eq x]
    rfl
  | _ => obtain rfl := Host.Outcome.next.inj h; rfl

section
variable {i : Instr} {s t : State} (h : exec i s = .next t)
include h

/-- R13: `I` is written by `Annn`, `Fx1E` and `Fx29` alone. -/
theorem exec_index (hl : ∀ nnn, i ≠ .ldI nnn) (ha : ∀ x, i ≠ .addI x) (hf : ∀ x, i ≠ .ldF x) : t.index = s.index := by
  have e := congrArg State.index (exec_frame h)
  cases i with
  | ldI nnn => exact absurd rfl (hl nnn)
  | addI x => exact absurd rfl (ha x)
  | ldF x => exact absurd rfl (hf x)
  | _ => exact e

/-- R17: the stack is written by `2nnn` alone. -/
theorem exec_stack (hc : ∀ nnn, i ≠ .call nnn) : t.stack = s.stack := by
  have e := congrArg State.stack (exec_frame h)
  cases i with
  | call nnn => exact absurd rfl (hc nnn)
  | _ => exact e

/-- R18: `sp` is written by `2nnn` and `00EE` alone. -/
theorem exec_sp (hc : ∀ nnn, i ≠ .call nnn) (hr : i ≠ .ret) : t.sp = s.sp := by
  have e := congrArg State.sp (exec_frame h)
  cases i with
  | call nnn => exact absurd rfl (hc nnn)
  | ret => exact absurd rfl hr
  | _ => exact e

/-- R29, R210: the fault register is written by `2nnn` and `00EE` alone. -/
theorem exec_fault (hc : ∀ nnn, i ≠ .call nnn) (hr : i ≠ .ret) : t.fault = s.fault := by
  have e := congrArg State.fault (exec_frame h)
  cases i with
  | call nnn => exact absurd rfl (hc nnn)
  | ret => exact absurd rfl hr
  | _ => exact e

/-- R20: `dt` is written by `Fx15` alone. -/
theorem exec_dt (hd : ∀ x, i ≠ .ldDtVx x) : t.dt = s.dt := by
  have e := congrArg State.dt (exec_frame h)
  cases i with
  | ldDtVx x => exact absurd rfl (hd x)
  | _ => exact e

/-- R46, R47: the memory is written by `Fx33` and `Fx55` alone. -/
theorem exec_mem (hb : ∀ x, i ≠ .ldB x) (hs : ∀ x, i ≠ .storeRegs x) : t.mem = s.mem := by
  have e := congrArg State.mem (exec_frame h)
  cases i with
  | ldB x => exact absurd rfl (hb x)
  | storeRegs x => exact absurd rfl (hs x)
  | _ => exact e

/-- R23, R24: the framebuffer and the draw flag are written by `00E0` and `Dxyn` alone. -/
theorem exec_fb (hc : i ≠ .cls) (hd : ∀ x y n, i ≠ .drw x y n) : t.fb = s.fb ∧ t.drawFlag = s.drawFlag := by
  have e := exec_frame h
  have ef := congrArg State.fb e
  have ed := congrArg State.drawFlag e
  cases i with
  | cls => exact absurd rfl hc
  | drw x y n => exact absurd rfl (hd x y n)
  | _ => exact ⟨ef, ed⟩

/-- R24: both display instructions set the draw flag. -/
theorem exec_drawFlag (hi : i = .cls ∨ ∃ x y n, i = .drw x y n) : t.drawFlag = true := by
  have e := congrArg State.drawFlag (exec_frame h)
  obtain rfl | ⟨x, y, n, rfl⟩ := hi
  · exact e
  · exact e

/-- R22: no instruction writes the keys. -/
theorem exec_keys : t.keys = s.keys := by
  have e := congrArg State.keys (exec_frame h)
  cases i <;> exact e

/-- R216: an instruction that raises a fault changes nothing else. -/
theorem exec_of_fault (hs : s.fault = .none) (ht : t.fault ≠ .none) : t = { s with fault := t.fault } := by
  cases i with
  | ret =>
    obtain ⟨-, rfl⟩ | ⟨-, a, -, rfl⟩ := execRet_cases h
    · rfl
    · exact absurd hs ht
  | call nnn =>
    obtain ⟨-, rfl⟩ | ⟨-, rfl⟩ := execCall_cases h
    · exact absurd hs ht
    · rfl
  | _ => exact absurd ((exec_fault h nofun nofun).trans hs) ht

/-! ### The registers an instruction writes (R10, R11) -/

/-- R10's table: a register outside the instruction's row is unchanged. -/
theorem exec_getV_of_not_mayWrite {r : Nibble} (hr : ¬ MayWrite i r) : t.getV r = s.getV r := by
  cases i with
  | ldImm x _ | addImm x _ | ldReg x _ | orReg x _ | andReg x _ | xorReg x _ | rnd x _ | ldVxDt x =>
    obtain rfl := Host.Outcome.next.inj h
    exact (State.getV_setV ..).trans (if_neg hr)
  | addReg x _ | subReg x _ | subnReg x _ | shr x | shl x =>
    obtain ⟨hx, hF⟩ := not_or.mp hr
    obtain rfl := Host.Outcome.next.inj h
    exact (State.getV_setResultFlag ..).trans ((if_neg hF).trans (if_neg hx))
  | ldVxK x =>
    obtain ⟨k, -, rfl⟩ | ⟨-, rfl⟩ := execLdVxK_cases h
    · exact (State.getV_setV ..).trans (if_neg hr)
    · rfl
  | drw x y n =>
    obtain rfl := Host.Outcome.next.inj h
    exact (State.getV_setV ..).trans (if_neg hr)
  | loadRegs x =>
    obtain rfl := Host.Outcome.next.inj h
    exact (State.getV_loadBlock ..).trans (if_neg hr)
  | _ => exact congrArg (fun u => u.getV r) (exec_frame h)

/-- R11, R12: after the six flag instructions `VF` is 0 or 1, also when it is their destination. -/
theorem exec_getV_flag (hi : WritesFlag i) : t.getV 0xF = 0 ∨ t.getV 0xF = 1 := by
  have key : ∃ b, t.getV 0xF = flagByte b := by
    cases i with
    | addReg x _ | subReg x _ | subnReg x _ | shr x | shl x =>
      obtain rfl := Host.Outcome.next.inj h
      exact ⟨_, State.getV_setResultFlag ..⟩
    | drw x y n =>
      obtain rfl := Host.Outcome.next.inj h
      exact ⟨_, State.getV_setV ..⟩
    | _ => exact hi.elim
  obtain ⟨b, hb⟩ := key
  exact hb ▸ flagByte_eq_zero_or_one b

end

/-! ### The program counter (R15) -/

/-- R53: the key a register selects, by the number of its low 4 bits. -/
theorem State.selectedKey_eq (s : State) (x : Nibble) :
    s.selectedKey x = s.keys[Fin.ofNat 16 (s.getV x).toNat] := by
  simp [State.selectedKey, State.key]

/-- R193: the scan finds a key exactly when one is pressed. -/
theorem State.exists_key_iff_highestKey_ne_none (s : State) :
    (∃ k : Fin 16, s.keys[k] = true) ↔ s.highestKey ≠ none := by
  rw [ne_eq, s.highestKey_eq_none, not_forall]
  constructor
  · rintro ⟨k, hk⟩
    exact ⟨BitVec.ofFin k, by simpa [State.key] using hk⟩
  · rintro ⟨k, hk⟩
    exact ⟨k.toFin, by simpa [State.key] using hk⟩

/-- R18: a pop from a stack that is not empty lowers `sp` by 1. -/
theorem State.popped_sp_toNat (s : State) (h : s.sp ≠ 0) : s.popped.sp.toNat = s.sp.toNat - 1 := by
  have h0 : s.sp.toNat ≠ 0 := fun e => h (BitVec.eq_of_toNat_eq e)
  rw [State.popped_sp, BitVec.toNat_sub_of_le (by bv_omega)]
  rfl

/-- R100: the entry `00EE` pops, read with a default. -/
theorem State.getD_stack_of_stackEntry (s : State) {a : Word} (h : s.sp ≠ 0) (ha : s.stackEntry (s.sp - 1) = some a) :
    s.stack.toList.getD (s.sp.toNat - 1) 0 = a := by
  rw [State.stackEntry, ← State.popped_sp, s.popped_sp_toNat h] at ha
  simp [List.getD_eq_getElem?_getD, ha]

/-- R15: `pc` after an instruction that does not fault. -/
theorem exec_pc {i : Instr} {s t : State} (h : exec i s = .next t) (ht : t.fault = .none) : t.pc = nextPc s i := by
  cases i with
  | ret =>
    obtain ⟨-, rfl⟩ | ⟨h0, a, ha, rfl⟩ := execRet_cases h
    · cases ht
    · exact congrArg (· + 2) (s.getD_stack_of_stackEntry h0 ha).symm
  | call nnn =>
    obtain ⟨-, rfl⟩ | ⟨-, rfl⟩ := execCall_cases h
    · rfl
    · cases ht
  | ldVxK x =>
    obtain ⟨k, hk, rfl⟩ | ⟨hk, rfl⟩ := execLdVxK_cases h
    · exact (if_pos (s.exists_key_iff_highestKey_ne_none.mpr (by simp [hk]))).symm
    · exact (if_neg (fun hp => t.exists_key_iff_highestKey_ne_none.mp hp hk)).symm
  | seImm x nn | sneImm x nn | seReg x y | sneReg x y =>
    obtain rfl := Host.Outcome.next.inj h
    simp [nextPc]
  | skp x | sknp x =>
    obtain rfl := Host.Outcome.next.inj h
    simp [nextPc, State.selectedKey_eq]
  | loadRegs x =>
    obtain rfl := Host.Outcome.next.inj h
    rw [s.loadBlock_eq x]
    rfl
  | _ => obtain rfl := Host.Outcome.next.inj h; rfl

/-! ### Steps and runs -/

/-- R216: a step that ends with a fault has changed nothing but `fault`, whether it raised the fault or found it. -/
theorem step_of_fault {s t : State} (h : step s = .next t) (ht : t.fault ≠ .none) : t = { s with fault := t.fault } := by
  obtain ⟨-, rfl⟩ | ⟨hh, i, u, -, hu, rfl⟩ | ⟨hh, g, -, rfl⟩ := step_cases h
  · rfl
  · rw [State.endStep_fault] at ht
    rw [u.endStep_halted ht]
    exact exec_of_fault hu (State.halted_eq_false.mp hh) ht
  · exact absurd ((s.unknownOpcode.endStep_fault).trans (State.halted_eq_false.mp hh)) ht

/-- R33: a step that ends without a fault ticks the state its rule left, which has no fault either. -/
theorem step_of_no_fault {s t : State} (h : step s = .next t) (ht : t.fault = .none) :
    s.fault = .none ∧ ∃ u : State, t = u.tick ∧
      ((∃ i, s.fetched = .instr i ∧ exec i s = .next u) ∨ ∃ g, s.fetched = .unknown g ∧ u = s.unknownOpcode) := by
  obtain ⟨hh, rfl⟩ | ⟨hh, i, u, hi, hu, rfl⟩ | ⟨hh, g, hg, rfl⟩ := step_cases h
  · exact absurd ht (State.halted_eq_true.mp hh)
  · rw [State.endStep_fault] at ht
    exact ⟨State.halted_eq_false.mp hh, u, u.endStep_running ht, .inl ⟨i, hi, hu⟩⟩
  · rw [State.endStep_fault] at ht
    exact ⟨State.halted_eq_false.mp hh, _, State.endStep_running _ ht, .inr ⟨g, hg, rfl⟩⟩

/-- R21: the timer after a step without a fault that runs no `Fx15`. -/
theorem step_dt {s t : State} (h : step s = .next t) (ht : t.fault = .none)
    (hd : ∀ x, s.fetched ≠ .instr (.ldDtVx x)) : t.dt.toNat = s.dt.toNat - 1 := by
  obtain ⟨-, u, rfl, ⟨i, hi, hu⟩ | ⟨g, -, rfl⟩⟩ := step_of_no_fault h ht
  · rw [u.tick_dt_toNat, exec_dt hu (fun x e => hd x (e ▸ hi))]
  · exact s.unknownOpcode.tick_dt_toNat

/-- R21, R194: the timer after a step without a fault that runs an `Fx15`. -/
theorem step_dt_of_ldDtVx {s t : State} {x : Nibble} (h : step s = .next t) (ht : t.fault = .none)
    (hx : s.fetched = .instr (.ldDtVx x)) : t.dt.toNat = (s.getV x).toNat - 1 := by
  obtain ⟨-, u, rfl, ⟨i, hi, hu⟩ | ⟨g, hg, -⟩⟩ := step_of_no_fault h ht
  · obtain rfl : i = .ldDtVx x := Decoded.instr.inj (hi.symm.trans hx)
    obtain rfl := Host.Outcome.next.inj hu
    rw [State.tick_dt_toNat, State.next_dt, State.setDt_dt, zextByte_toNat]
  · cases hg.symm.trans hx

/-- A run of `k + 1` steps is a step and a run of `k`. -/
theorem run_succ_cases {M : Host.Core} {k : Nat} {s t : M.State} (h : M.run (k + 1) s = .next t) :
    ∃ u, M.step s = .next u ∧ M.run k u = .next t := by
  unfold Host.Core.run at h
  split at h
  · next u hu => exact ⟨u, hu, h⟩
  · cases h
  · cases h

theorem run_succ_of_step {M : Host.Core} {s u : M.State} (h : M.step s = .next u) (k : Nat) :
    M.run (k + 1) s = M.run k u := by
  rw [Host.Core.run, h]

/-- R217: no run clears a fault. -/
theorem run_fault_none {k : Nat} {s t : State} (h : core.run k s = .next t) (ht : t.fault = .none) : s.fault = .none := by
  induction k generalizing s with
  | zero => exact Host.Outcome.next.inj h ▸ ht
  | succ k ih =>
    obtain ⟨u, hu, hk⟩ := run_succ_cases h
    exact (step_of_no_fault hu (ih hk)).1

/-- R20, R21, R246: over a run without a fault in which no step loads the timer, it falls by one a step, down to 0. -/
theorem run_dt {k : Nat} {s t : State} (h : core.run k s = .next t) (ht : t.fault = .none)
    (hd : ∀ j u, j < k → core.run j s = .next u → ∀ x, State.fetched u ≠ .instr (.ldDtVx x)) :
    t.dt.toNat = s.dt.toNat - k := by
  induction k generalizing s with
  | zero => exact Host.Outcome.next.inj h ▸ rfl
  | succ k ih =>
    obtain ⟨u, hu, hk⟩ := run_succ_cases h
    have first : u.dt.toNat = s.dt.toNat - 1 := step_dt hu (run_fault_none hk ht) (hd 0 s k.succ_pos rfl)
    have rest : t.dt.toNat = u.dt.toNat - k :=
      ih hk fun j w hj hw => hd (j + 1) w (Nat.succ_lt_succ hj) ((run_succ_of_step hu j).trans hw)
    omega

/-! ### The step answers (R26, R43, R215) -/

/-- R100, R54: `00EE` with a stack entry to pop pops it. -/
theorem execRet_of_sp_le {s : State} (h0 : s.sp ≠ 0) (h : s.sp.toNat ≤ 48) : ∃ t, execRet s = .next t := by
  have hk : (s.sp - 1).toNat < 48 := by have := s.popped_sp_toNat h0; rw [State.popped_sp] at this; bv_omega
  exact ⟨_, by rw [execRet, if_neg h0, s.stackEntry_eq_some _ hk]⟩

/-- Log entry 5: `00EE` with `sp` above 48 finds no entry. -/
theorem execRet_of_lt_sp {s : State} (h : 48 < s.sp.toNat) : execRet s = .fault .noStackEntry := by
  have h0 : s.sp ≠ 0 := fun e => by simp [e] at h
  have hk : 48 ≤ (s.sp - 1).toNat := by have := s.popped_sp_toNat h0; rw [State.popped_sp] at this; omega
  rw [execRet, if_neg h0, s.stackEntry_eq_none _ hk]

/-- Every instruction answers a next state where `sp` is at most 48. -/
theorem exec_answers (i : Instr) {s : State} (h : s.sp.toNat ≤ 48) : ∃ t, exec i s = .next t := by
  cases i with
  | ret =>
    by_cases h0 : s.sp = 0
    · exact ⟨_, if_pos h0⟩
    · exact execRet_of_sp_le h0 h
  | call nnn =>
    by_cases hs : s.sp.toNat < 48
    · exact ⟨_, if_pos hs⟩
    · exact ⟨_, if_neg hs⟩
  | ldVxK x => cases hk : s.highestKey <;> simp [exec, execLdVxK, hk]
  | _ => exact ⟨_, rfl⟩

/-- Every step answers a next state where `sp` is at most 48, and from a halted core. -/
theorem step_answers {s : State} (h : s.sp.toNat ≤ 48 ∨ s.fault ≠ .none) : ∃ t, step s = .next t := by
  by_cases hf : s.fault = .none
  · have hs : s.sp.toNat ≤ 48 := h.resolve_right (not_not_intro hf)
    cases hd : s.fetched with
    | instr i =>
      obtain ⟨u, hu⟩ := exec_answers i hs
      exact ⟨u.endStep, by rw [step_of_instr hf hd, hu]; rfl⟩
    | unknown g => exact ⟨_, step_of_unknown hf hd⟩
  · exact ⟨s, step_of_halted hf⟩

/-! ### The invariant (R34) -/

/-- The invariant speaks of three fields only. -/
theorem State.Inv.of_fields {s t : State} (h : s.Inv) (hsp : t.sp = s.sp) (hdt : t.dt.toNat ≤ s.dt.toNat)
    (hmem : t.mem = s.mem) : t.Inv :=
  ⟨hsp ▸ h.sp_le, hdt.trans h.dt_le, hmem ▸ h.mem_wf⟩

/-- R18: no instruction takes `sp` above 48. -/
theorem exec_sp_le {i : Instr} {s t : State} (h : exec i s = .next t) (hs : s.sp.toNat ≤ 48) : t.sp.toNat ≤ 48 := by
  cases i with
  | ret =>
    obtain ⟨-, rfl⟩ | ⟨h0, a, -, rfl⟩ := execRet_cases h
    · exact hs
    · rw [State.setPc_sp, s.popped_sp_toNat h0]; omega
  | call nnn =>
    obtain ⟨hlt, rfl⟩ | ⟨-, rfl⟩ := execCall_cases h
    · rw [State.setPc_sp, State.push_sp]; bv_omega
    · exact hs
  | _ => exact exec_sp h nofun nofun ▸ hs

/-- R20: no instruction takes `dt` above 255. -/
theorem exec_dt_le {i : Instr} {s t : State} (h : exec i s = .next t) (hs : s.dt.toNat ≤ 255) : t.dt.toNat ≤ 255 := by
  cases i with
  | ldDtVx x =>
    obtain rfl := Host.Outcome.next.inj h
    rw [State.next_dt, State.setDt_dt, zextByte_toNat]
    exact Nat.le_of_lt_succ (s.getV x).isLt
  | _ => exact exec_dt h nofun ▸ hs

/-- Log entry 4: every instruction keeps the memory canonical. -/
theorem exec_mem_wf {i : Instr} {s t : State} (h : exec i s = .next t) (hs : s.mem.wf = true) : t.mem.wf = true := by
  cases i with
  | ldB x | storeRegs x => obtain rfl := Host.Outcome.next.inj h; exact memWriteBytes_wf hs _ _
  | _ => exact exec_mem h nofun nofun ▸ hs

/-- R34: every instruction keeps the invariant. -/
theorem exec_inv {i : Instr} {s t : State} (h : exec i s = .next t) (hs : s.Inv) : t.Inv :=
  ⟨exec_sp_le h hs.sp_le, exec_dt_le h hs.dt_le, exec_mem_wf h hs.mem_wf⟩

/-- The end of a step keeps the invariant: it lowers the timer or leaves it. -/
theorem State.Inv.endStep {s : State} (h : s.Inv) : s.endStep.Inv :=
  h.of_fields s.endStep_sp s.endStep_dt_le s.endStep_mem

/-- R34: every step keeps the invariant. -/
theorem step_inv {s t : State} (h : step s = .next t) (hs : s.Inv) : t.Inv := by
  obtain ⟨-, rfl⟩ | ⟨-, i, u, -, hu, rfl⟩ | ⟨-, g, -, rfl⟩ := step_cases h
  · exact hs
  · exact (exec_inv hu hs).endStep
  · exact (hs.of_fields (t := s.unknownOpcode) rfl le_rfl rfl).endStep

/-- R240: the `reset` command leads to the invariant from any state. -/
theorem State.resetCommand_inv (s : State) : s.resetCommand.Inv :=
  ⟨Nat.zero_le _, Nat.zero_le _, rfl⟩

/-- What a `load` that succeeds leaves (R241). -/
theorem State.load_eq_loaded {s t : State} {rom : List Byte} (h : s.load rom = .loaded t) :
    t = s.setMem (memWriteBytes s.mem Config.progBase rom) := by
  unfold State.load at h
  split at h
  · exact (LoadResult.loaded.inj h).symm
  · cases h

/-- A load that succeeds keeps the invariant (R241). -/
theorem State.load_inv {s t : State} {rom : List Byte} (h : s.load rom = .loaded t) (hs : s.Inv) : t.Inv := by
  rw [State.load_eq_loaded h]
  exact ⟨hs.sp_le, hs.dt_le, memWriteBytes_wf hs.mem_wf _ _⟩

/-- The core after a `load` that the session answers (R241, R242). -/
theorem Session.load_cases {a b : Session} {rom : List Byte} {r : Reply} (h : a.load rom = some (b, r)) :
    a.core.load rom = .loaded b.core ∨ b = a := by
  unfold Session.load at h
  split at h
  · cases h
  · next hl _ => obtain ⟨rfl, -⟩ := Prod.mk.inj (Option.some.inj h); exact .inl hl
  · exact .inr (Prod.mk.inj (Option.some.inj h)).1.symm

/-- The core after a `step` that the session answers (R33, R243). -/
theorem Session.step_core {a b : Session} {r : Reply} (h : a.step = some (b, r)) :
    Machine.step a.core = .next b.core := by
  unfold Session.step at h
  split at h
  · cases h
  · next hs _ => obtain ⟨rfl, -⟩ := Prod.mk.inj (Option.some.inj h); exact hs
  · cases h
  · cases h

/-- R34, R244: every move that the session answers keeps the invariant. -/
theorem Session.move_inv {a b : Session} {m : Move} {r : Reply} (h : a.move m = some (b, r)) (ha : a.core.Inv) :
    b.core.Inv := by
  cases m with
  | reset =>
    obtain ⟨rfl, -⟩ := Prod.mk.inj (Option.some.inj h)
    exact a.core.resetCommand_inv
  | load rom =>
    obtain hl | rfl := Session.load_cases h
    · exact State.load_inv hl ha
    · exact ha
  | step => exact step_inv (Session.step_core h) ha
  | writeKey k p =>
    obtain ⟨rfl, -⟩ := Prod.mk.inj (Option.some.inj h)
    exact ha.of_fields rfl le_rfl rfl
  | consumeFrame =>
    obtain ⟨rfl, -⟩ := Prod.mk.inj (Option.some.inj h)
    exact ha.of_fields rfl le_rfl rfl

/-! ### The values after reset (R32) -/

/-- R32, R41: after the `reset` command every byte holds its reset contents. -/
theorem State.memRead_resetCommand (s : State) {a : Nat} (ha : a < 4096) :
    memRead s.resetCommand.mem a = memBackground a :=
  congrArg memBackground (Nat.mod_eq_of_lt ha)

/-- R32: the `reset` command gives every piece of state its value, from any state. -/
theorem State.resetCommand_isReset (s : State) : IsReset s.resetCommand := by
  have hfont : ∀ a, a < 80 → memRead s.resetCommand.mem a = Config.fontset a := fun a ha =>
    (s.memRead_resetCommand (by omega)).trans (if_pos ha)
  have hzero : ∀ a, 80 ≤ a → a < 4096 → memRead s.resetCommand.mem a = 0 := fun a ha hlt =>
    (s.memRead_resetCommand hlt).trans (if_neg (Nat.not_lt.mpr ha))
  refine ⟨fun r => ?_, rfl, rfl, rfl, fun k => ?_, rfl, fun k => ?_, fbRead_fbClear, rfl, rfl, hfont, hzero⟩
  all_goals exact Vector.getElem_replicate _

/-! ### The obligations -/

/-- Settles O46: each instruction, the tick and the unknown opcode keep the three parts of the invariant. -/
theorem everyStepKeepsTheInvariant : Obligations.EveryStepKeepsTheInvariant := fun _ _ hs h => step_inv h hs

/-- Settles O57, by the five moves: `step` is O46's lemma, `load` writes memory only, the others leave the three fields or
reset them. -/
theorem everyHostMoveKeepsTheInvariant : Obligations.EveryHostMoveKeepsTheInvariant :=
  fun _ _ _ _ ha h => Session.move_inv h ha

/-- Settles O39: `exec_pc` for the instructions, `step_of_unknown` and `step_of_fault` for the other steps. -/
theorem programCounterRule : Obligations.ProgramCounterRule := by
  unfold Obligations.ProgramCounterRule
  refine ⟨fun i s t _ h ht => exec_pc h ht, fun s t g hs hg h => ?_, fun s t h ht => ?_⟩
  · rw [step_of_unknown hs hg] at h
    exact congrArg State.pc (Host.Outcome.next.inj h).symm
  · exact (congrArg State.pc (step_of_fault h ht) :)

/-- Settles O40: a step with a fault changes nothing else, one without ticks what its rule left. -/
theorem delayTimerTicksOncePerStep : Obligations.DelayTimerTicksOncePerStep := by
  unfold Obligations.DelayTimerTicksOncePerStep
  intro s t h
  exact ⟨fun ht => (congrArg State.dt (step_of_fault h ht) :), fun ht => ⟨fun x hx => step_dt_of_ldDtVx h ht hx, step_dt h ht⟩⟩

/-- Settles O41, by induction on the number of steps (`run_dt`). -/
theorem delayTimerCountsSteps : Obligations.DelayTimerCountsSteps := fun _ _ _ h ht hd => run_dt h ht hd

/-- Settles O42: `exec_getV_of_not_mayWrite`, and an unknown opcode writes `pc` and `dt` only. -/
theorem registersWrittenAreThoseOfTheTable : Obligations.RegistersWrittenAreThoseOfTheTable := by
  unfold Obligations.RegistersWrittenAreThoseOfTheTable
  refine ⟨fun i s t h r hr => exec_getV_of_not_mayWrite h hr, fun s t g hg h r => ?_⟩
  obtain ⟨-, rfl⟩ | ⟨-, i, u, hi, -, -⟩ | ⟨-, g', -, rfl⟩ := step_cases h
  · rfl
  · cases hg.symm.trans hi
  · exact s.unknownOpcode.endStep_getV r

/-- Settles O43: the flag of the six instructions is a `flagByte` written last; the rest is R10's table. -/
theorem flagIsWrittenBySixInstructions : Obligations.FlagIsWrittenBySixInstructions :=
  fun _ _ _ h => ⟨exec_getV_flag h, fun _ hr => exec_getV_of_not_mayWrite h hr⟩

/-- Settles O45, field by field from the frame of each instruction. -/
theorem specialStateHasItsWriters : Obligations.SpecialStateHasItsWriters :=
  fun _ _ _ h => ⟨exec_index h, fun hc => ⟨exec_stack h hc, exec_sp h hc⟩, exec_dt h, exec_fb h, exec_drawFlag h,
    exec_fault h, exec_keys h⟩

/-- Settles O47: the state after reset is what the `reset` command leaves. -/
theorem resetMeetsTheInvariant : Obligations.ResetMeetsTheInvariant := State.resetCommand_inv State.reset

/-- Settles O48, by induction on the moves from the start. -/
theorem everyReachableSessionMeetsTheInvariant : Obligations.EveryReachableSessionMeetsTheInvariant := by
  unfold Obligations.EveryReachableSessionMeetsTheInvariant
  intro a h
  induction h with
  | start => exact resetMeetsTheInvariant
  | move _ hm ih => exact Session.move_inv hm ih

/-- Settles O49: every instruction answers where `sp` is at most 48. -/
theorem everyStepAnswersANextState : Obligations.EveryStepAnswersANextState := fun _ h => step_answers h

/-- Settles O1, by the cases of the step: halted, decoded, unknown. -/
theorem stepRunsTheDecodedInstruction : Obligations.StepRunsTheDecodedInstruction := by
  unfold Obligations.StepRunsTheDecodedInstruction
  intro s
  refine ⟨step_of_halted, fun i hs hi => ?_, fun g hs hg => step_of_unknown hs hg⟩
  have hstep : step s = endOutcome (exec i s) := step_of_instr hs hi
  refine ⟨rfl, fun u hu hf => ?_, fun u hu hf => ?_, fun r hr => ?_, fun r hr => ?_⟩
  · rw [hstep, hu, endOutcome, u.endStep_running hf, u.tick_eq_ticked]
  · rw [hstep, hu, endOutcome, u.endStep_halted hf]
  · rw [hstep, hr, endOutcome]
  · rw [hstep, hr, endOutcome]

/-- Settles O10: there is no stack entry at `sp - 1` (log entry 5). -/
theorem returnBeyondTheStackStops : Obligations.ReturnBeyondTheStackStops := fun _ h => execRet_of_lt_sp h

/-- Settles O51: the `reset` command gives R32's values, and the state after reset is one such. -/
theorem resetGivesTheTableOfValues : Obligations.ResetGivesTheTableOfValues :=
  ⟨State.resetCommand_isReset State.reset, State.resetCommand_isReset⟩

end Sys2Proof.Machine
end

section
/-! ## The memory, the fetch and the block store (spec/20_memory.md R42 to R50, spec/42_index_memory.md R154)

A read depends on its address mod 4096 only (R42), so the fetch and the block store meet in the congruence of their
addresses: `exec_storeRegs_memRead` reads the block at every address congruent to one of its own. -/

namespace Sys2Proof.Machine

/-! ### Addresses mod 4096 (R42) -/

/-- R42: a read depends on the address mod 4096 only. -/
theorem memRead_congr (m : Memory) {a b : Nat} (h : a % 4096 = b % 4096) : memRead m a = memRead m b :=
  congrArg (memGet m) h

/-- The wrap of a 16-bit address is none mod 4096. -/
theorem toNat_add_mod_4096 (a b : Word) : (a + b).toNat % 4096 = (a.toNat + b.toNat) % 4096 := by
  rw [BitVec.toNat_add]
  exact Nat.mod_mod_of_dvd _ (by decide)

/-! ### The fetch (R44) -/

/-- R44: the low byte of the fetch stands one address above the high byte, mod 4096. -/
theorem State.fetchLo_eq_memRead (s : State) : s.fetchLo = memRead s.mem (s.pc.toNat + 1) :=
  memRead_congr s.mem (toNat_add_mod_4096 s.pc 1)

/-- The end of a step changes nothing the next fetch reads. -/
@[simp] theorem State.endStep_fetch (s : State) : s.endStep.fetch = s.fetch := by
  rw [State.endStep_eq]; rfl

/-! ### The block store (R154) -/

section
variable {s t : State} {x : Nibble} (h : exec (.storeRegs x) s = .next t) (hw : s.mem.wf = true)
include h

/-- R15: `Fx55` moves `pc` by 2. -/
theorem exec_storeRegs_pc : t.pc = s.pc + 2 := by
  obtain rfl := Host.Outcome.next.inj h
  rfl

include hw

/-- R154, R42: after `Fx55` every address congruent to `I + k`, `k` from 0 to `x`, holds `V[k]`. -/
theorem exec_storeRegs_memRead {a k : Nat} (hk : k ≤ x.toNat) (ha : a % 4096 = (s.index.toNat + k) % 4096) :
    memRead t.mem a = s.getV (BitVec.ofNat 4 k) := by
  have hl : (s.regBlock x).length ≤ 4096 := by rw [State.regBlock_length]; omega
  have hkl : k < (s.regBlock x).length := by rw [State.regBlock_length]; omega
  obtain rfl := Host.Outcome.next.inj h
  rw [memRead_congr _ ha, ← s.regBlock_getElem x k hkl]
  exact memRead_memWriteBytes_same hw (s.dataAddr 0) _ hl k hkl

/-- R50: a block store over the next instruction is what is fetched next. -/
theorem exec_storeRegs_fetch (hx : x ≠ 0) (ha : s.index.toNat % 4096 = (s.pc.toNat + 2) % 4096) :
    t.fetch = s.getV 0 ++ s.getV 1 := by
  have hx1 : 1 ≤ x.toNat := by bv_omega
  have hpc : t.pc.toNat % 4096 = s.index.toNat % 4096 := by
    rw [exec_storeRegs_pc h, ha]
    exact toNat_add_mod_4096 s.pc 2
  have hhi : t.fetchHi = s.getV 0 := exec_storeRegs_memRead (k := 0) h hw x.toNat.zero_le hpc
  have hlo : t.fetchLo = s.getV 1 := by
    rw [t.fetchLo_eq_memRead]
    exact exec_storeRegs_memRead (k := 1) h hw hx1 (by omega)
  rw [State.fetch, wordOfBytes, hhi, hlo]

end

/-! ### The obligations -/

/-- Settles O3: the fetch reads the block where the store wrote it (`exec_storeRegs_fetch`), and the end of the step, which
is all that the step adds, leaves the fetch. -/
theorem storeIsSeenByTheNextFetch : Obligations.StoreIsSeenByTheNextFetch := by
  unfold Obligations.StoreIsSeenByTheNextFetch
  intro x s hw hx ha
  obtain ⟨t, ht⟩ : ∃ t, exec (.storeRegs x) s = .next t := ⟨_, rfl⟩
  have hfetch : t.fetch = s.getV 0 ++ s.getV 1 := exec_storeRegs_fetch ht hw hx ha
  refine ⟨t, ht, hfetch, fun hf hd => ⟨t.endStep, ?_, ?_⟩⟩
  · rw [step_of_instr hf hd, ht, endOutcome]
  · rw [t.endStep_fetch, hfetch]

/-- Settles O44: the memory stands outside the frame of every other instruction (`exec_mem`). -/
theorem memoryIsWrittenByTwoInstructions : Obligations.MemoryIsWrittenByTwoInstructions := by
  unfold Obligations.MemoryIsWrittenByTwoInstructions
  intro i s t h hb hs a
  rw [exec_mem h hb hs]

/-- Settles O2: the wrap of `pc + 1` at 65536 is none mod 4096 (`fetchLo_eq_memRead`). -/
theorem fetchIsBigEndianModulo4096 : Obligations.FetchIsBigEndianModulo4096 := by
  unfold Obligations.FetchIsBigEndianModulo4096
  intro s
  refine ⟨?_, rfl⟩
  rw [State.fetch, s.fetchLo_eq_memRead]
  rfl

end Sys2Proof.Machine
end

section
/-! ## The decoder, the opcode map and the ignored bits (spec/30_encoding.md R60 to R74)

The key is `decode_eq_instr_iff`: a word decodes to `i` exactly when it selects `i`'s row of the opcode map (R63) and the
operands cut from it (R61) are those of `i`. What the ignored bits do (R70) follows, since no mask holds one, and no operand
but the `x` of `Fx18`. -/

namespace Sys2Proof

open Sys2Proof.Machine Sys2Proof.Claims

/-! ### The fields of a masked word (R61) -/

@[simp] theorem fieldNN_and (a b : Word) : fieldNN (a &&& b) = fieldNN a &&& fieldNN b := by
  simp [fieldNN, BitVec.extractLsb'_and]

section
variable {op m v : Word} (h : op &&& m = v)
include h

/-- A field that the mask keeps whole is the masked word's, here the top nibble. -/
theorem topNibble_of_and_eq (hm : topNibble m = 0xF#4) : topNibble op = topNibble v := by
  rw [← h, topNibble_and, hm, nibble_and_ones]

theorem fieldX_of_and_eq (hm : fieldX m = 0xF#4) : fieldX op = fieldX v := by
  rw [← h, fieldX_and, hm, nibble_and_ones]

theorem fieldY_of_and_eq (hm : fieldY m = 0xF#4) : fieldY op = fieldY v := by
  rw [← h, fieldY_and, hm, nibble_and_ones]

theorem fieldN_of_and_eq (hm : fieldN m = 0xF#4) : fieldN op = fieldN v := by
  rw [← h, fieldN_and, hm, nibble_and_ones]

theorem fieldNN_of_and_eq (hm : fieldNN m = 0xFF#8) : fieldNN op = fieldNN v := by
  rw [← h, fieldNN_and, hm]
  exact BitVec.and_allOnes.symm

end

/-! ### A word put together from its fields (R73) -/

theorem encodeXYN_fields (op : Word) : encodeXYN (topNibble op) (fieldX op) (fieldY op) (fieldN op) = op :=
  word_ext (topNibble_encodeXYN ..) (fieldX_encodeXYN ..) (fieldY_encodeXYN ..) (fieldN_encodeXYN ..)

theorem encodeXI_fields (op : Word) : encodeXI (topNibble op) (fieldX op) (fieldNN op) = op := by
  refine word_ext (topNibble_encodeXI ..) (fieldX_encodeXI ..) ?_ ?_
  · rw [fieldY_encodeXI]
    simp [fieldNN, fieldY, BitVec.extractLsb'_extractLsb'_of_le]
  · rw [fieldN_encodeXI]
    simp [fieldNN, fieldN, BitVec.extractLsb'_extractLsb'_of_le]

theorem encodeA_fields (op : Word) : encodeA (topNibble op) (fieldNNN op) = op := by
  refine word_ext (topNibble_encodeA ..) ?_ ?_ ?_
  · rw [fieldX_encodeA]
    simp [fieldNNN, fieldX, BitVec.extractLsb'_extractLsb'_of_le]
  · rw [fieldY_encodeA]
    simp [fieldNNN, fieldY, BitVec.extractLsb'_extractLsb'_of_le]
  · rw [fieldN_encodeA]
    simp [fieldNNN, fieldN, BitVec.extractLsb'_extractLsb'_of_le]

/-! ### The instruction of a row with the operands of a word -/

/-- The instruction of `i`'s row of the opcode map with its operands cut from a word as R61 says. -/
def Instr.withFields (i : Instr) (op : Word) : Instr :=
  match i with
  | .cls => .cls
  | .ret => .ret
  | .jp _ => .jp (fieldNNN op)
  | .call _ => .call (fieldNNN op)
  | .seImm _ _ => .seImm (fieldX op) (fieldNN op)
  | .sneImm _ _ => .sneImm (fieldX op) (fieldNN op)
  | .seReg _ _ => .seReg (fieldX op) (fieldY op)
  | .ldImm _ _ => .ldImm (fieldX op) (fieldNN op)
  | .addImm _ _ => .addImm (fieldX op) (fieldNN op)
  | .ldReg _ _ => .ldReg (fieldX op) (fieldY op)
  | .orReg _ _ => .orReg (fieldX op) (fieldY op)
  | .andReg _ _ => .andReg (fieldX op) (fieldY op)
  | .xorReg _ _ => .xorReg (fieldX op) (fieldY op)
  | .addReg _ _ => .addReg (fieldX op) (fieldY op)
  | .subReg _ _ => .subReg (fieldX op) (fieldY op)
  | .shr _ => .shr (fieldX op)
  | .subnReg _ _ => .subnReg (fieldX op) (fieldY op)
  | .shl _ => .shl (fieldX op)
  | .sneReg _ _ => .sneReg (fieldX op) (fieldY op)
  | .ldI _ => .ldI (fieldNNN op)
  | .jpV0 _ => .jpV0 (fieldNNN op)
  | .rnd _ _ => .rnd (fieldX op) (fieldNN op)
  | .drw _ _ _ => .drw (fieldX op) (fieldY op) (fieldN op)
  | .skp _ => .skp (fieldX op)
  | .sknp _ => .sknp (fieldX op)
  | .ldVxDt _ => .ldVxDt (fieldX op)
  | .ldVxK _ => .ldVxK (fieldX op)
  | .ldDtVx _ => .ldDtVx (fieldX op)
  | .ldStVx _ => .ldStVx (fieldX op)
  | .addI _ => .addI (fieldX op)
  | .ldF _ => .ldF (fieldX op)
  | .ldB _ => .ldB (fieldX op)
  | .storeRegs _ => .storeRegs (fieldX op)
  | .loadRegs _ => .loadRegs (fieldX op)

/-- The row does not depend on the operands. -/
@[simp] theorem rowOf_withFields (i : Instr) (op : Word) : rowOf (i.withFields op) = rowOf i := by cases i <;> rfl

/-- R73: the operands of an encoded word are those of the instruction. -/
@[simp] theorem withFields_encode (i : Instr) : i.withFields (encode i) = i := by
  cases i <;> simp [Instr.withFields, encode]

/-- R63: every row of the map is decoded by the top nibble first. -/
theorem topNibble_mask_rowOf (i : Instr) : topNibble (rowOf i).mask = 0xF#4 := by
  cases i <;> simp only [rowOf] <;> rfl

/-- The map holds the row of every instruction. -/
theorem rowOf_mem_opcodeMap (i : Instr) : rowOf i ∈ opcodeMap := by
  cases i <;> simp [opcodeMap, oneOfEachRow, rowOf]

/-- Every row of the map is an instruction's. -/
theorem exists_rowOf_eq {r : OpRow} (h : r ∈ opcodeMap) : ∃ i, rowOf i = r := by
  obtain ⟨i, -, hi⟩ := List.mem_map.mp h
  exact ⟨i, hi⟩

/-- R63, R73: the encoded word of an instruction selects its row, by what each mask keeps of each format. -/
theorem encode_selects (i : Instr) : encode i &&& (rowOf i).mask = (rowOf i).value := by
  cases i with
  | cls | ret => rfl
  | jp | call | ldI | jpV0 => exact (Laws.TableRow.format_A _ _).trans rfl
  | seImm | sneImm | ldImm | addImm | rnd => exact (Laws.TableRow.format_XI _ _ _).trans rfl
  | seReg | sneReg | drw => exact (Laws.TableRow.format_XYN _ _ _ _).trans rfl
  | ldReg | orReg | andReg | xorReg | addReg | subReg | shr | subnReg | shl =>
    exact (Laws.TableRow.format_XY _ _ _ _).trans rfl
  | skp | sknp | ldVxDt | ldVxK | ldDtVx | ldStVx | addI | ldF | ldB | storeRegs | loadRegs =>
    exact (Laws.TableRow.format_XF _ _ _).trans rfl

/-! ### The decoder by groups (R63) -/

section
variable {op : Word}

/-- R64 -/
theorem decode_eq_group0 (h : topNibble op = 0x0#4) : decode op = decodeGroup0 op := by unfold decode; rw [h]; rfl

/-- R66 -/
theorem decode_eq_group8 (h : topNibble op = 0x8#4) : decode op = decodeGroup8 op := by unfold decode; rw [h]; rfl

/-- R67 -/
theorem decode_eq_groupE (h : topNibble op = 0xE#4) : decode op = decodeGroupE op := by unfold decode; rw [h]; rfl

/-- R68 -/
theorem decode_eq_groupF (h : topNibble op = 0xF#4) : decode op = decodeGroupF op := by unfold decode; rw [h]; rfl

/-- R63, from the map to the decoder: a word that selects `i`'s row decodes to that row's instruction, with the operands of
the word. -/
theorem decode_of_selects (i : Instr) (h : op &&& (rowOf i).mask = (rowOf i).value) :
    decode op = .instr (i.withFields op) := by
  have ht : topNibble op = topNibble (rowOf i).value := topNibble_of_and_eq h (topNibble_mask_rowOf i)
  cases i with simp only [rowOf] at h ht
  | cls | ret =>
    rw [decode_eq_group0 ht]; unfold decodeGroup0; rw [fieldN_of_and_eq h rfl]; rfl
  | ldReg | orReg | andReg | xorReg | addReg | subReg | shr | subnReg | shl =>
    rw [decode_eq_group8 ht]; unfold decodeGroup8; rw [fieldN_of_and_eq h rfl]; rfl
  | skp | sknp =>
    rw [decode_eq_groupE ht]; unfold decodeGroupE; rw [fieldNN_of_and_eq h rfl]; rfl
  | ldVxDt | ldVxK | ldDtVx | ldStVx | addI | ldF | ldB | storeRegs | loadRegs =>
    rw [decode_eq_groupF ht]; unfold decodeGroupF; rw [fieldNN_of_and_eq h rfl]; rfl
  | _ => unfold decode; rw [ht]; rfl

/-! What the fields that the decoder looked at make of a masked word, for a row whose value has no bit outside its mask. -/

section
variable {v : Word} (ht : (topNibble op).toNat = (topNibble v).toNat)
include ht

theorem and_F000_eq (hv : v &&& 0xF000#16 = v) : op &&& 0xF000#16 = v := by
  rw [and_mask_F000, BitVec.eq_of_toNat_eq ht, ← and_mask_F000, hv]

theorem and_F00F_eq (hn : (fieldN op).toNat = (fieldN v).toNat) (hv : v &&& 0xF00F#16 = v) : op &&& 0xF00F#16 = v := by
  rw [and_mask_F00F, BitVec.eq_of_toNat_eq ht, BitVec.eq_of_toNat_eq hn, ← and_mask_F00F, hv]

theorem and_F0FF_eq (hb : (fieldNN op).toNat = (fieldNN v).toNat) (hv : v &&& 0xF0FF#16 = v) : op &&& 0xF0FF#16 = v := by
  rw [and_mask_F0FF, BitVec.eq_of_toNat_eq ht, BitVec.eq_of_toNat_eq hb, ← and_mask_F0FF, hv]

end

/-- A word of an instruction: it selects the instruction's row, and its fields are the instruction's operands. -/
structure IsWordOf (op : Word) (i : Instr) : Prop where
  selects : op &&& (rowOf i).mask = (rowOf i).value
  operands : i.withFields op = i

variable {i : Instr}

/-- R63, from the decoder to the map: whatever arm the decoder took, what it looked at is what the row's mask keeps. -/
theorem isWordOf_of_decode (h : decode op = .instr i) : IsWordOf op i := by
  have hlt : (topNibble op).toNat < 16 := (topNibble op).isLt
  unfold decode decodeGroup0 decodeGroup8 decodeGroupE decodeGroupF at h
  split at h <;> rename_i ht
  case' h_16 => replace ht : (topNibble op).toNat = 15 := by grind
  -- groups 0 and 8, by the bottom nibble
  case h_1 | h_9 =>
    split at h <;> cases h <;> rename_i hn <;> refine ⟨?_, rfl⟩ <;> simp only [rowOf]
    all_goals exact and_F00F_eq ht hn rfl
  -- groups E and F, by the bottom byte
  case h_15 | h_16 =>
    split at h <;> cases h <;> rename_i hb <;> refine ⟨?_, rfl⟩ <;> simp only [rowOf]
    all_goals exact and_F0FF_eq ht hb rfl
  -- the groups of one instruction
  all_goals
    cases h
    refine ⟨?_, rfl⟩
    simp only [rowOf]
    exact and_F000_eq ht rfl

/-- R63, both ways: the words that decode to an instruction are the words of it. -/
theorem decode_eq_instr_iff : decode op = .instr i ↔ IsWordOf op i :=
  ⟨isWordOf_of_decode, fun h => by rw [decode_of_selects i h.selects, h.operands]⟩

/-- R73: the encoded word of an instruction is a word of it. -/
theorem decode_encode (i : Instr) : decode (encode i) = .instr i :=
  decode_eq_instr_iff.mpr ⟨encode_selects i, withFields_encode i⟩

/-! ### The ignored bits (R70) -/

variable {op' : Word}

section
variable (h : op &&& ~~~ignoredBits i = op' &&& ~~~ignoredBits i)
include h

/-- Words that differ in ignored bits alone select the same row: no mask holds an ignored bit. -/
theorem selects_congr : op &&& (rowOf i).mask = op' &&& (rowOf i).mask := by
  have hm : ~~~ignoredBits i &&& (rowOf i).mask = (rowOf i).mask := by
    cases i <;> simp only [ignoredBits, rowOf] <;> decide
  rw [← hm, ← BitVec.and_assoc, h, BitVec.and_assoc]

/-- Words that differ in ignored bits alone have the same operands, but for the `x` of `Fx18`. -/
theorem withFields_congr (hi : ∀ x, i ≠ .ldStVx x) : i.withFields op = i.withFields op' := by
  cases i with simp only [ignoredBits] at h
  | cls | ret => rfl
  | seReg | sneReg =>
    have hx : fieldX op = fieldX op' := (fieldX_of_and_eq h rfl).trans (fieldX_of_and_eq rfl rfl).symm
    have hy : fieldY op = fieldY op' := (fieldY_of_and_eq h rfl).trans (fieldY_of_and_eq rfl rfl).symm
    simp only [Instr.withFields, hx, hy]
  | shr | shl =>
    have hx : fieldX op = fieldX op' := (fieldX_of_and_eq h rfl).trans (fieldX_of_and_eq rfl rfl).symm
    simp only [Instr.withFields, hx]
  | ldStVx x => exact absurd rfl (hi x)
  | _ =>
    have hop : op = op' := by simpa only [BitVec.not_zero, BitVec.and_allOnes] using h
    rw [hop]

/-- Words that differ in ignored bits alone run the same operation; of `Fx18`, which has none, whatever its `x`. -/
theorem exec_congr (hd : decode op = .instr i) : ∃ j, decode op' = .instr j ∧ ∀ s, exec j s = exec i s := by
  have hw : IsWordOf op i := isWordOf_of_decode hd
  have hd' : decode op' = .instr (i.withFields op') := decode_of_selects i ((selects_congr h).symm.trans hw.selects)
  refine ⟨_, hd', fun s => ?_⟩
  by_cases hi : ∃ x, i = .ldStVx x
  · obtain ⟨x, rfl⟩ := hi
    rfl
  · rw [← withFields_congr h (not_exists.mp hi), hw.operands]

end

/-- Clearing the ignored bits of a word changes nothing in its decoding. -/
theorem decode_clear_ignoredBits (hi : ∀ x, i ≠ .ldStVx x) (h : op &&& (rowOf i).mask = (rowOf i).value) :
    decode op = decode (op &&& ~~~ignoredBits i) := by
  have hk : op &&& ~~~ignoredBits i = op &&& ~~~ignoredBits i &&& ~~~ignoredBits i := by
    rw [BitVec.and_assoc, BitVec.and_self]
  rw [decode_of_selects i h, decode_of_selects i ((selects_congr hk).symm.trans h), withFields_congr hk hi]

/-- R64: an unknown word of group 0 stays what it is, too, when the bits that the group ignores are cleared. -/
theorem decode_clear_group0 (ht : topNibble op = 0#4) : decode op = decode (op &&& 0xF00F#16) := by
  have ht' : topNibble (op &&& 0xF00F#16) = 0#4 := by rw [topNibble_and, ht]; rfl
  have hn : fieldN op = fieldN (op &&& 0xF00F#16) := fieldN_of_and_eq (m := 0xF00F#16) rfl rfl
  rw [decode_eq_group0 ht, decode_eq_group0 ht', decodeGroup0, hn]
  rfl

/-! ### A word from its fields, by format (R74) -/

theorem word_ext_A (ht : topNibble op = topNibble op') (hnnn : fieldNNN op = fieldNNN op') : op = op' := by
  rw [← encodeA_fields op, ht, hnnn, encodeA_fields]

theorem word_ext_XI (ht : topNibble op = topNibble op') (hx : fieldX op = fieldX op') (hnn : fieldNN op = fieldNN op') :
    op = op' := by
  rw [← encodeXI_fields op, ht, hx, hnn, encodeXI_fields]

/-! ### The canonical words (R70) -/

theorem wordCanonical_of_group0 (ht : topNibble op = 0x0#4) :
    wordCanonical op = (op == 0x00E0#16 || op == 0x00EE#16) := by
  unfold wordCanonical; rw [show op.extractLsb' 12 4 = 0x0#4 from ht]; rfl

theorem wordCanonical_of_group5_9 (ht : topNibble op = 0x5#4 ∨ topNibble op = 0x9#4) :
    wordCanonical op = (fieldN op == 0#4) := by
  unfold wordCanonical
  obtain ht | ht := ht
  · rw [show op.extractLsb' 12 4 = 0x5#4 from ht]; rfl
  · rw [show op.extractLsb' 12 4 = 0x9#4 from ht]; rfl

theorem wordCanonical_of_group8 (ht : topNibble op = 0x8#4) :
    wordCanonical op = if fieldN op == 6#4 || fieldN op == 14#4 then fieldY op == 0#4 else true := by
  unfold wordCanonical; rw [show op.extractLsb' 12 4 = 0x8#4 from ht]; rfl

theorem wordCanonical_of_groupF (ht : topNibble op = 0xF#4) :
    wordCanonical op = if fieldNN op == 0x18#8 then fieldX op == 0#4 else true := by
  unfold wordCanonical; rw [show op.extractLsb' 12 4 = 0xF#4 from ht]; rfl

theorem wordCanonical_of_other (ht : (topNibble op).toNat ∉ [0x0, 0x5, 0x8, 0x9, 0xF]) : wordCanonical op = true := by
  unfold wordCanonical
  change ¬ (op.extractLsb' 12 4).toNat ∈ _ at ht
  split <;> simp_all

/-- The encoder writes the ignored bits as the assembler does. -/
theorem wordCanonical_encode (hi : ∀ x, i ≠ .ldStVx x) : wordCanonical (encode i) = true := by
  cases i with
  | cls | ret => rfl
  | seReg | sneReg => simp [encode, wordCanonical_of_group5_9]
  | ldReg | orReg | andReg | xorReg | addReg | subReg | shr | subnReg | shl => simp [encode, wordCanonical_of_group8]
  | ldVxDt | ldVxK | ldDtVx | addI | ldF | ldB | storeRegs | loadRegs => simp [encode, wordCanonical_of_groupF]
  | ldStVx x => exact absurd rfl (hi x)
  | _ => exact wordCanonical_of_other (by simp [encode])

/-- R70: an instruction has at most one canonical word. Its row and its operands give the fields that are not ignored, and
the canonical spelling the others. -/
theorem eq_of_wordCanonical (h : IsWordOf op i) (h' : IsWordOf op' i) (hc : wordCanonical op = true)
    (hc' : wordCanonical op' = true) : op = op' := by
  obtain ⟨hsel, hops⟩ := h
  obtain ⟨hsel', hops'⟩ := h'
  have hm := topNibble_mask_rowOf i
  have ht := topNibble_of_and_eq hsel hm
  have ht' := topNibble_of_and_eq hsel' hm
  have htop : topNibble op = topNibble op' := ht.trans ht'.symm
  replace hops : i.withFields op = i.withFields op' := hops.trans hops'.symm
  cases i with simp only [Instr.withFields, rowOf] at hops hsel hsel' ht ht'
  | cls | ret =>
    rw [wordCanonical_of_group0 ht, Bool.or_eq_true, beq_iff_eq, beq_iff_eq] at hc
    rw [wordCanonical_of_group0 ht', Bool.or_eq_true, beq_iff_eq, beq_iff_eq] at hc'
    obtain rfl | rfl := hc <;> obtain rfl | rfl := hc' <;> revert hsel hsel' <;> decide
  | jp | call | ldI | jpV0 =>
    injection hops with hnnn
    exact word_ext_A htop hnnn
  | seImm | sneImm | ldImm | addImm | rnd =>
    injection hops with hx hnn
    exact word_ext_XI htop hx hnn
  | seReg | sneReg =>
    injection hops with hx hy
    rw [wordCanonical_of_group5_9 (by rw [ht]; decide), beq_iff_eq] at hc
    rw [wordCanonical_of_group5_9 (by rw [ht']; decide), beq_iff_eq] at hc'
    exact word_ext htop hx hy (hc.trans hc'.symm)
  | shr | shl =>
    injection hops with hx
    have hn := fieldN_of_and_eq hsel rfl
    have hn' := fieldN_of_and_eq hsel' rfl
    rw [wordCanonical_of_group8 ht, hn] at hc
    rw [wordCanonical_of_group8 ht', hn'] at hc'
    have hy : fieldY op = fieldY op' := (beq_iff_eq.mp hc).trans (beq_iff_eq.mp hc').symm
    exact word_ext htop hx hy (hn.trans hn'.symm)
  | ldReg | orReg | andReg | xorReg | addReg | subReg | subnReg =>
    injection hops with hx hy
    exact word_ext htop hx hy ((fieldN_of_and_eq hsel rfl).trans (fieldN_of_and_eq hsel' rfl).symm)
  | drw =>
    injection hops with hx hy hn
    exact word_ext htop hx hy hn
  | skp | sknp | ldVxDt | ldVxK | ldDtVx | ldStVx | addI | ldF | ldB | storeRegs | loadRegs =>
    injection hops with hx
    exact word_ext_XI htop hx ((fieldNN_of_and_eq hsel rfl).trans (fieldNN_of_and_eq hsel' rfl).symm)

/-! ### The assembler's words (R70) -/

/-- R70: the ignored bits of the assembler's word are its fill. -/
theorem assemble_and_ignoredBits (i : Instr) : assemble i &&& ignoredBits i = assemblerFill i := by
  cases i with
  | cls | ret => rfl
  | ldStVx x => simp [assemble_ldStVx, assemblerFill, ignoredBits]
  | _ => simp [assemble, assemblerFill, BitVec.and_assoc]

/-- R70: what the assembler writes is canonical. -/
theorem wordCanonical_assemble (i : Instr) : wordCanonical (assemble i) = true := by
  by_cases hi : ∃ x, i = .ldStVx x
  · obtain ⟨x, rfl⟩ := hi
    rw [assemble_ldStVx]
    decide
  · rw [not_exists] at hi
    rw [assemble_eq_encode i hi, wordCanonical_encode hi]

/-- The assembler's word decodes to the instruction, `Fx18` apart. -/
theorem decode_assemble (hi : ∀ x, i ≠ .ldStVx x) : decode (assemble i) = .instr i := by
  rw [assemble_eq_encode i hi, decode_encode]

/-- Of `Fx18` the assembler leaves the `x` out. -/
theorem decode_assemble_ldStVx (x : Nibble) : decode (assemble (.ldStVx x)) = .instr (.ldStVx 0) := by
  rw [assemble_ldStVx]
  decide

/-- R70, R195: the assembler's word runs the instruction. -/
theorem exists_decode_assemble (i : Instr) :
    ∃ j, decode (assemble i) = .instr j ∧ (∀ s, exec j s = exec i s) ∧ ((∀ x, i ≠ .ldStVx x) → j = i) := by
  by_cases hi : ∃ x, i = .ldStVx x
  · obtain ⟨x, rfl⟩ := hi
    exact ⟨.ldStVx 0, decode_assemble_ldStVx x, fun _ => rfl, fun h => absurd rfl (h x)⟩
  · exact ⟨i, decode_assemble (not_exists.mp hi), fun _ => rfl, fun _ => rfl⟩

/-- The assembler writes `Fx18` with `x` 0, so a canonical word of it has that `x`. -/
theorem decode_assemble_of_wordCanonical (hd : decode op = .instr i) (hc : wordCanonical op = true) :
    decode (assemble i) = .instr i := by
  by_cases hi : ∃ x, i = .ldStVx x
  · obtain ⟨x, rfl⟩ := hi
    obtain ⟨hsel, hops⟩ := isWordOf_of_decode hd
    simp only [Instr.withFields, rowOf] at hsel hops
    rw [wordCanonical_of_groupF (topNibble_of_and_eq hsel rfl), fieldNN_of_and_eq hsel rfl] at hc
    injection hops with hx
    rw [decode_assemble_ldStVx, ← hx, beq_iff_eq.mp hc]
    rfl
  · exact decode_assemble (not_exists.mp hi)

/-- R70: the assembler's word is the one canonical word of an instruction. -/
theorem wordCanonical_iff_eq_assemble (hd : decode op = .instr i) : wordCanonical op = true ↔ op = assemble i := by
  refine ⟨fun hc => ?_, fun h => h ▸ wordCanonical_assemble i⟩
  exact eq_of_wordCanonical (isWordOf_of_decode hd) (isWordOf_of_decode (decode_assemble_of_wordCanonical hd hc)) hc
    (wordCanonical_assemble i)

end

/-! ### The unknown opcodes of each group (R69) -/

/-- R64, R69 -/
theorem decodeGroup0_unknown_iff (op : Word) :
    (∃ g, decodeGroup0 op = .unknown g) ↔ (fieldN op).toNat ≠ 0 ∧ (fieldN op).toNat ≠ 14 := by
  unfold decodeGroup0; split <;> simp_all

/-- R66, R69 -/
theorem decodeGroup8_unknown_iff (op : Word) :
    (∃ g, decodeGroup8 op = .unknown g) ↔ 8 ≤ (fieldN op).toNat ∧ (fieldN op).toNat ≠ 14 := by
  unfold decodeGroup8; split <;> simp_all; omega

/-- R67, R69 -/
theorem decodeGroupE_unknown_iff (op : Word) :
    (∃ g, decodeGroupE op = .unknown g) ↔ (fieldNN op).toNat ≠ 0x9E ∧ (fieldNN op).toNat ≠ 0xA1 := by
  unfold decodeGroupE; split <;> simp_all

/-- R68, R69 -/
theorem decodeGroupF_unknown_iff (op : Word) :
    (∃ g, decodeGroupF op = .unknown g) ↔
      (fieldNN op).toNat ∉ [0x07, 0x0A, 0x15, 0x18, 0x1E, 0x29, 0x33, 0x55, 0x65] := by
  unfold decodeGroupF; split <;> simp_all

/-! ### The obligations -/

/-- Settles O4: an encoded word selects the instruction's row and gives the operands back (`decode_encode`); its bytes put
together again are the word. -/
theorem decodeOfEncodeIsTheInstruction : Obligations.DecodeOfEncodeIsTheInstruction := by
  unfold Obligations.DecodeOfEncodeIsTheInstruction
  intro i _
  refine ⟨decode_encode i, ?_⟩
  rw [decodeBytes, wordOfBytes_highByte_lowByte, decode_encode]

/-- Settles O5: `isWordOf_of_decode` from the decoder to the map, `decode_of_selects` back; a word on two rows would decode to
an instruction of each. -/
theorem decoderFollowsTheOpcodeMap : Obligations.DecoderFollowsTheOpcodeMap := by
  unfold Obligations.DecoderFollowsTheOpcodeMap
  refine ⟨fun op i h => ⟨rowOf_mem_opcodeMap i, (isWordOf_of_decode h).selects⟩, fun op r hr hop => ?_,
    fun op r r' hr hr' hop hop' => ?_, rfl⟩
  · obtain ⟨i, rfl⟩ := exists_rowOf_eq hr
    exact ⟨i.withFields op, decode_of_selects i hop, rowOf_withFields i op⟩
  · obtain ⟨i, rfl⟩ := exists_rowOf_eq hr
    obtain ⟨j, rfl⟩ := exists_rowOf_eq hr'
    have hij : i.withFields op = j.withFields op :=
      Decoded.instr.inj ((decode_of_selects i hop).symm.trans (decode_of_selects j hop'))
    rw [← rowOf_withFields i op, hij, rowOf_withFields]

/-- Settles O6, by the arms of the decoder: only groups 0, 8, E and F hold unknown opcodes, each those of its line of R69. -/
theorem unknownOpcodesAreThoseOfTheTable : Obligations.UnknownOpcodesAreThoseOfTheTable := by
  unfold Obligations.UnknownOpcodesAreThoseOfTheTable
  intro op
  have hlt : (topNibble op).toNat < 16 := (topNibble op).isLt
  simp only [← topNibble_toNat, ← fieldN_toNat, ← fieldNN_toNat]
  unfold decode
  split <;> rename_i ht
  case h_1 => simp [ht, decodeGroup0_unknown_iff]
  case h_9 => simp [ht, decodeGroup8_unknown_iff]
  case h_15 => simp [ht, decodeGroupE_unknown_iff]
  case h_16 =>
    have ht : (topNibble op).toNat = 15 := by grind
    simp [ht, decodeGroupF_unknown_iff]
  all_goals simp [ht]

/-- Settles O7: groups 5 and 9 and the two shifts are rows of the map, whose ignored bits are cleared; group 0 holds unknown
words as well. -/
theorem ignoredBitsChangeNothing : Obligations.IgnoredBitsChangeNothing := by
  unfold Obligations.IgnoredBitsChangeNothing
  simp only [← topNibble_toNat, ← fieldN_toNat]
  refine ⟨fun op ht => decode_clear_group0 (BitVec.eq_of_toNat_eq ht), fun op ht => ?_, fun op ht hn => ?_, fun _ _ _ => rfl⟩
  · obtain ht | ht := ht
    · exact decode_clear_ignoredBits (i := .seReg 0 0) nofun (and_F000_eq ht rfl)
    · exact decode_clear_ignoredBits (i := .sneReg 0 0) nofun (and_F000_eq ht rfl)
  · obtain hn | hn := hn
    · exact decode_clear_ignoredBits (i := .shr 0) nofun (and_F00F_eq ht hn rfl)
    · exact decode_clear_ignoredBits (i := .shl 0) nofun (and_F00F_eq ht hn rfl)

/-- Settles O56: neither the row nor an operand holds an ignored bit (`exec_congr`), and the assembler's word is the one
canonical word. -/
theorem assemblerFillsTheIgnoredBits : Obligations.AssemblerFillsTheIgnoredBits :=
  ⟨fun _ _ _ hd h => exec_congr h hd, assemble_and_ignoredBits, exists_decode_assemble,
    fun _ _ hd => wordCanonical_iff_eq_assemble hd⟩

/-- Settles O8: fourteen fixed words, which the decoder is run on. -/
theorem specWordsDecodeAsTheSpecSays : Obligations.SpecWordsDecodeAsTheSpecSays := by
  unfold Obligations.SpecWordsDecodeAsTheSpecSays
  decide

end Sys2Proof
end

section
/-! ## Control transfer (spec/40_flow.md R100 to R108)

The rules of `00EE` and `2nnn` are said once per outcome (`exec_ret_of_sp_eq`, `exec_call_of_lt` and the two faults), and a
call and its return meet in `State.push_stack_getElem`: the entry the call writes is the one the return pops. Every encoding
clause is `selects_rowOf` at the instruction's row. -/

namespace Sys2Proof.Machine

open Sys2Proof.Claims

/-- R61, R63: the words of an instruction's row decode to it, with the operands of the word. -/
theorem selects_rowOf (i : Instr) : Selects (rowOf i).mask (rowOf i).value i.withFields := fun _ h => decode_of_selects i h

/-! ### The push (R102) -/

section
variable {s : State} {k : Fin 48} (h : s.sp.toNat = k.val)
include h

/-- R102: the pushed word stands at the old `sp`, and the other entries are kept. -/
theorem State.push_stack_getElem (w : Word) (j : Fin 48) : (s.push w).stack[j] = if j = k then w else s.stack[j] := by
  simp only [State.push_stack, h, Fin.getElem_fin, Vector.getElem_setIfInBounds, Fin.ext_iff, eq_comm]

/-- R18: a push with room on the stack raises `sp` by 1, without wrap. -/
theorem State.push_sp_toNat (w : Word) : (s.push w).sp.toNat = k.val + 1 := by
  rw [State.push_sp, BitVec.toNat_add, h]
  exact Nat.mod_eq_of_lt (show k.val + 1 < 64 by omega)

end

/-! ### The call and the return (R100, R102, R212, R213) -/

section
variable {s : State}

/-- R102: the rule of `2nnn` with room on the stack. -/
theorem exec_call_of_lt (h : s.sp.toNat < 48) (nnn : Addr) :
    exec (.call nnn) s = .next ((s.push s.pc).setPc (zextAddr nnn)) := if_pos h

/-- R213: `2nnn` with the stack full. -/
theorem exec_call_of_le (h : 48 ≤ s.sp.toNat) (nnn : Addr) : exec (.call nnn) s = .next (s.raise .stackOverflow) :=
  if_neg (Nat.not_lt.mpr h)

/-- R212: `00EE` with the stack empty. -/
theorem exec_ret_of_sp_eq_zero (h : s.sp = 0) : exec .ret s = .next (s.raise .stackUnderflow) := if_pos h

section
variable {k : Fin 48} (h : s.sp.toNat = k.val + 1)
include h

/-- R18: with `k + 1` entries on the stack a pop leaves `k`. -/
theorem State.popped_sp_of_sp_eq : s.popped.sp.toNat = k.val := by
  rw [s.popped_sp_toNat (fun e => by simp [e] at h), h, Nat.add_sub_cancel]

/-- R100: `00EE` with `k + 1` entries on the stack pops entry `k`. -/
theorem exec_ret_of_sp_eq : exec .ret s = .next (s.popped.setPc (s.stack[k] + 2)) := by
  have h0 : s.sp ≠ 0 := fun e => by simp [e] at h
  have hentry : s.stackEntry s.popped.sp = some s.stack[k] := by
    simp [State.stackEntry, -State.popped_sp, State.popped_sp_of_sp_eq h]
  rw [exec, execRet, if_neg h0, ← State.popped_sp, hentry]

end

end

/-! ### The skips (R103 to R106) -/

/-- R103: "skip next" on a condition moves `pc` alone. -/
theorem State.skipIf_decide (s : State) (p : Prop) [Decidable p] :
    s.skipIf (decide p) = { s with pc := if p then s.pc + 4 else s.pc + 2 } := by
  simp only [State.skipIf, State.setPc, decide_eq_true_eq]

/-! ### The obligations -/

/-- Settles O9: the pop of entry `k` (`exec_ret_of_sp_eq`) and the underflow. -/
theorem returnPopsAndAddsTwo : Obligations.ReturnPopsAndAddsTwo := by
  unfold Obligations.ReturnPopsAndAddsTwo
  refine ⟨selects_rowOf .ret, fun s k h => ?_, fun s h => exec_ret_of_sp_eq_zero h⟩
  exact ⟨_, exec_ret_of_sp_eq h, State.popped_sp_of_sp_eq h, rfl⟩

/-- Settles O11: a jump to its own address leaves the state as it was, so the end of the step is all that happens. -/
theorem jumpLoadsTheTarget : Obligations.JumpLoadsTheTarget := by
  unfold Obligations.JumpLoadsTheTarget
  refine ⟨selects_rowOf (.jp 0), fun _ _ => rfl, fun nnn s hf hd hpc => ?_⟩
  have hself : exec (.jp nnn) s = .next s := by
    change Host.Outcome.next { s with pc := nnn.setWidth 16 } = _
    rw [← hpc]
  rw [step_of_instr hf hd, hself, endOutcome, s.endStep_running hf, s.tick_eq_ticked]

/-- Settles O12: the push is at the old `sp` (`State.push_stack_getElem`), and a full stack raises the overflow. -/
theorem callPushesItsOwnAddress : Obligations.CallPushesItsOwnAddress := by
  unfold Obligations.CallPushesItsOwnAddress
  refine ⟨selects_rowOf (.call 0), fun nnn s k h => ?_, fun nnn s h => exec_call_of_le h.ge nnn⟩
  have hexec := exec_call_of_lt (h.trans_lt k.isLt) nnn
  have hentry : (s.push s.pc).stack[k] = s.pc := (State.push_stack_getElem h s.pc k).trans (if_pos rfl)
  have hothers : ∀ j : Fin 48, j ≠ k → (s.push s.pc).stack[j] = s.stack[j] := fun j hj =>
    (State.push_stack_getElem h s.pc j).trans (if_neg hj)
  exact ⟨_, hexec, State.push_sp_toNat h s.pc, hentry, hothers, rfl⟩

/-- Settles O13: the return pops the entry the call pushed, the call's own address. -/
theorem callThenReturnResumesAfterTheCall : Obligations.CallThenReturnResumesAfterTheCall := by
  unfold Obligations.CallThenReturnResumesAfterTheCall
  intro nnn s h
  refine ⟨_, exec_call_of_lt h nnn, fun u hsp hstack => ?_⟩
  rw [State.setPc_sp] at hsp
  rw [State.setPc_stack] at hstack
  obtain ⟨k, hk⟩ : ∃ k : Fin 48, s.sp.toNat = k.val := ⟨⟨_, h⟩, rfl⟩
  have hexec := exec_ret_of_sp_eq (s := u) (hsp ▸ State.push_sp_toNat hk s.pc)
  have hpopped : u.stack[k] = s.pc := by rw [hstack, State.push_stack_getElem hk, if_pos rfl]
  have hback : u.popped.sp = s.sp := by rw [State.popped_sp, hsp, State.push_sp, BitVec.add_sub_cancel]
  exact ⟨_, hexec, congrArg (· + 2) hpopped, hback, rfl⟩

/-- Settles O14: the target as a number is `State.indexedTarget_toNat`, which has no reduction. -/
theorem indexedJumpAddsV0 : Obligations.IndexedJumpAddsV0 :=
  ⟨selects_rowOf (.jpV0 0), fun nnn s => ⟨s.setPc (s.indexedTarget nnn), rfl, rfl, s.indexedTarget_toNat nnn⟩⟩

/-- Settles O15: both rules are the skip on their condition (`State.skipIf_decide`). -/
theorem skipOnImmediate : Obligations.SkipOnImmediate :=
  ⟨selects_rowOf (.seImm 0 0), selects_rowOf (.sneImm 0 0), fun _ _ s =>
    ⟨congrArg Host.Outcome.next (s.skipIf_decide _), congrArg Host.Outcome.next (s.skipIf_decide _)⟩⟩

/-- Settles O16: the bottom nibble is in neither mask, and both rules are the skip on their condition. -/
theorem skipOnRegisters : Obligations.SkipOnRegisters :=
  ⟨selects_rowOf (.seReg 0 0), selects_rowOf (.sneReg 0 0), fun _ _ s =>
    ⟨congrArg Host.Outcome.next (s.skipIf_decide _), congrArg Host.Outcome.next (s.skipIf_decide _)⟩⟩

end Sys2Proof.Machine
end

section
/-! ## The ALU (spec/41_alu.md R120 to R132)

Every rule of the family but `Cxnn`, which counts its draw too, writes either `V[x]` alone (`writesV_of_setV`) or a result
and then its flag (`writesV_of_setResultFlag`, R12). What is left of an obligation is the value of the result and of the flag
as a number, a lemma about bytes each. Every encoding clause is `selects_rowOf` at the instruction's row. -/

namespace Sys2Proof.Machine

open Sys2Proof.Claims

/-! ### The two shapes of a register rule (R10, R12) -/

section
variable {i : Instr} {s : State} {x : Nibble} {result value : Byte}

/-- R10: a rule that writes `V[x]` and moves `pc` on. The value is given in the form a claim states it in. -/
theorem writesV_of_setV (h : exec i s = .next (s.setV x result).next) (hv : result = value) :
    WritesV i s fun r => if r = x then value else s.getV r :=
  ⟨_, h, rfl, fun r => hv ▸ s.getV_setV x r result⟩

/-- R10: the same rule with the written byte given bit by bit. -/
theorem exists_writesV_of_setV {bit : Nat → Bool} (h : exec i s = .next (s.setV x result).next)
    (hbit : ∀ j, result.getLsbD j = bit j) :
    ∃ f, WritesV i s f ∧ (∀ r, r ≠ x → f r = s.getV r) ∧ ∀ j, j < 8 → (f x).getLsbD j = bit j := by
  refine ⟨_, writesV_of_setV h rfl, fun r hr => if_neg hr, fun j _ => ?_⟩
  rw [if_pos rfl, hbit]

/-- R12: a rule that writes `V[x]`, then a flag to `VF`, and moves `pc` on. -/
theorem writesV_of_setResultFlag {flag : Bool} {f : Byte} (h : exec i s = .next (s.setResultFlag x result flag).next)
    (hf : flagByte flag = f) (hv : result = value) :
    WritesV i s fun r => if r = 0xF then f else if r = x then value else s.getV r :=
  ⟨_, h, rfl, fun r => hf ▸ hv ▸ s.getV_setResultFlag x r result flag⟩

end

/-! ### The results as numbers mod 256 (R121, R126 to R130) -/

/-- R121, R126: the sum. -/
theorem byte_add_eq (a b : Byte) : a + b = BitVec.ofNat 8 ((a.toNat + b.toNat) % 256) :=
  BitVec.eq_of_toNat_eq (by rw [BitVec.toNat_add, BitVec.toNat_ofNat, Nat.mod_mod])

/-- R127, R129: the difference. -/
theorem byte_sub_eq (a b : Byte) : a - b = BitVec.ofNat 8 ((a.toNat + 256 - b.toNat) % 256) :=
  BitVec.eq_of_toNat_eq (by rw [BitVec.toNat_sub, BitVec.toNat_ofNat]; omega)

/-- R128: the right shift halves. -/
theorem byte_shiftRight_one_eq (a : Byte) : a >>> 1 = BitVec.ofNat 8 (a.toNat / 2) :=
  BitVec.eq_of_toNat_eq (by rw [BitVec.toNat_ushiftRight, Nat.shiftRight_eq_div_pow, BitVec.toNat_ofNat]; omega)

/-- R130: the left shift doubles. -/
theorem byte_shiftLeft_one_eq (a : Byte) : a <<< 1 = BitVec.ofNat 8 (a.toNat * 2 % 256) :=
  BitVec.eq_of_toNat_eq (by rw [BitVec.toNat_shiftLeft, Nat.shiftLeft_eq, BitVec.toNat_ofNat, Nat.mod_mod])

/-! ### The flags as numbers (R126 to R130) -/

/-- R11: the flag byte of a condition. -/
theorem flagByte_decide (p : Prop) [Decidable p] : flagByte (decide p) = if p then 1 else 0 := by
  simp only [flagByte, decide_eq_true_eq]

/-- R126: the carry of `8xy4`. -/
theorem flagByte_carryOut (a b : Byte) : flagByte (carryOut a b) = if a.toNat + b.toNat > 255 then 1 else 0 :=
  flagByte_decide _

/-- R127, R129: "no borrow" in `a - b`. -/
theorem flagByte_noBorrow (a b : Byte) : flagByte (noBorrow a b) = if a.toNat ≥ b.toNat then 1 else 0 :=
  flagByte_decide _

/-- R11: the flag byte of a bit. -/
theorem flagByte_eq_ofNat (b : Bool) : flagByte b = BitVec.ofNat 8 b.toNat := by cases b <;> rfl

/-- R128: the bit a right shift by one shifts out. -/
theorem flagByte_lowBit (a : Byte) : flagByte (lowBit a) = BitVec.ofNat 8 (a.toNat % 2) := by
  rw [flagByte_eq_ofNat, lowBit, BitVec.getLsbD, Nat.toNat_testBit, Nat.pow_zero, Nat.div_one]

/-- R130: the bit a left shift by one shifts out; a byte has no bit above it. -/
theorem flagByte_highBit (a : Byte) : flagByte (highBit a) = BitVec.ofNat 8 (a.toNat / 128) := by
  have hbit : a.toNat / 2 ^ 7 % 2 = a.toNat / 128 := by omega
  rw [flagByte_eq_ofNat, highBit, BitVec.getLsbD, Nat.toNat_testBit, hbit]

/-! ### The obligations -/

/-- Settles O17: both rules write `V[x]` alone; the sum as a number is `byte_add_eq`. -/
theorem loadAndAddImmediate : Obligations.LoadAndAddImmediate :=
  ⟨selects_rowOf (.ldImm 0 0), selects_rowOf (.addImm 0 0), fun _ _ _ =>
    ⟨writesV_of_setV rfl rfl, writesV_of_setV rfl (byte_add_eq _ _)⟩⟩

/-- Settles O18: each rule writes `V[x]` alone, and its bits are those of the bitwise operation. -/
theorem copyAndBitwiseOperations : Obligations.CopyAndBitwiseOperations := by
  unfold Obligations.CopyAndBitwiseOperations
  refine ⟨selects_rowOf (.ldReg 0 0), selects_rowOf (.orReg 0 0), selects_rowOf (.andReg 0 0), selects_rowOf (.xorReg 0 0),
    fun x y s => ⟨writesV_of_setV rfl rfl, ?or, ?and, ?xor⟩⟩
  case or => exact exists_writesV_of_setV rfl fun _ => BitVec.getLsbD_or
  case and => exact exists_writesV_of_setV rfl fun _ => BitVec.getLsbD_and
  case xor => exact exists_writesV_of_setV rfl fun _ => BitVec.getLsbD_xor

/-- Settles O19: the sum, then the carry, which stays when `x = F`. -/
theorem addSetsCarry : Obligations.AddSetsCarry :=
  ⟨selects_rowOf (.addReg 0 0), fun _ _ _ => writesV_of_setResultFlag rfl (flagByte_carryOut _ _) (byte_add_eq _ _)⟩

/-- Settles O20: the difference, then "no borrow", which stays when `x = F`; `8xy7` is `8xy5` with the operands exchanged. -/
theorem subtractSetsNoBorrow : Obligations.SubtractSetsNoBorrow :=
  ⟨selects_rowOf (.subReg 0 0), selects_rowOf (.subnReg 0 0), fun _ _ _ =>
    ⟨writesV_of_setResultFlag rfl (flagByte_noBorrow _ _) (byte_sub_eq _ _),
      writesV_of_setResultFlag rfl (flagByte_noBorrow _ _) (byte_sub_eq _ _)⟩⟩

/-- Settles O21: the shifted byte, then the bit shifted out, which stays when `x = F`. The `y` field is in neither mask. -/
theorem shiftsMoveOneBitIntoVF : Obligations.ShiftsMoveOneBitIntoVF :=
  ⟨selects_rowOf (.shr 0), selects_rowOf (.shl 0), fun _ _ =>
    ⟨writesV_of_setResultFlag rfl (flagByte_lowBit _) (byte_shiftRight_one_eq _),
      writesV_of_setResultFlag rfl (flagByte_highBit _) (byte_shiftLeft_one_eq _)⟩⟩

/-- Settles O22: the byte drawn is the free value `Config.rnd draws`, of which only the mask is known. -/
theorem randomIsMaskedByTheImmediate : Obligations.RandomIsMaskedByTheImmediate := by
  unfold Obligations.RandomIsMaskedByTheImmediate
  refine ⟨selects_rowOf (.rnd 0 0), fun x nn s => ?_⟩
  have hv : ∀ r, (s.setV x (s.randomOperand nn)).drawn.next.getV r = if r = x then Config.rnd s.draws &&& nn else s.getV r :=
    fun r => s.getV_setV x r _
  refine ⟨_, Config.rnd s.draws, rfl, rfl, hv, fun i hi => ?_⟩
  rw [hv, if_pos rfl, BitVec.getLsbD_and, hi, Bool.and_false]

end Sys2Proof.Machine
end

section
/-! ## The index register and the memory instructions (spec/42_index_memory.md R150 to R156)

The rules that write `I` are settled by the value written, as a number. `Fx33` and `Fx55` store a list of bytes at `I` upward,
the digits or the register block, so what they write and what they leave are the laws of `memWriteBytes`; `Fx65` is the block
load of `State.getV_loadBlock`. Every encoding clause is `selects_rowOf` at the instruction's row. -/

namespace Sys2Proof.Machine

/-! ### The values written to `I` as numbers (R150 to R152) -/

/-- R150: the immediate, without change. -/
theorem zextAddr_eq (nnn : Addr) : zextAddr nnn = BitVec.ofNat 16 nnn.toNat := (BitVec.ofNat_toNat 16 nnn).symm

/-- R151: the sum mod 65536. -/
theorem word_add_zextByte_eq (a : Word) (b : Byte) : a + zextByte b = BitVec.ofNat 16 ((a.toNat + b.toNat) % 65536) :=
  BitVec.eq_of_toNat_eq (by rw [BitVec.toNat_add, zextByte_toNat, BitVec.toNat_ofNat, Nat.mod_mod])

/-- R152: five times the whole byte. -/
theorem glyphAddr_eq (b : Byte) : glyphAddr b = BitVec.ofNat 16 (b.toNat * 5) := by
  rw [← glyphAddr_toNat, BitVec.ofNat_toNat, BitVec.setWidth_eq]

/-! ### The digits stored by `Fx33` (R153) -/

/-- R153: the digits as numbers; each fits a byte. -/
theorem bcdDigits_toNat (b : Byte) : (bcdDigits b).map BitVec.toNat = [b.toNat / 100, b.toNat / 10 % 10, b.toNat % 10] := by
  have hfit (n : Nat) (hn : n ≤ b.toNat) : (BitVec.ofNat 8 n).toNat = n := Nat.mod_eq_of_lt (by omega)
  simp only [bcdDigits, List.map_cons, List.map_nil]
  rw [hfit _ (by omega), hfit _ (by omega), hfit _ (by omega)]

section
variable {s t : State} {x : Nibble} (h : exec (.ldB x) s = .next t) (hw : s.mem.wf = true)
include h hw

/-- R153: digit `k` of `V[x]` is read back at `I + k`. -/
theorem exec_ldB_memRead {k : Nat} (hk : k < 3) :
    (memRead t.mem (s.index.toNat + k)).toNat =
      [(s.getV x).toNat / 100, (s.getV x).toNat / 10 % 10, (s.getV x).toNat % 10][k] := by
  obtain rfl := Host.Outcome.next.inj h
  simp only [← bcdDigits_toNat, List.getElem_map]
  exact congrArg BitVec.toNat (memRead_memWriteBytes_same hw (s.dataAddr 0) (bcdDigits (s.getV x)) (by simp) k hk)

/-- R153: an address that no digit falls on reads as before. -/
theorem exec_ldB_memRead_other {a : Nat} (ha : ∀ k, k < 3 → a % 4096 ≠ (s.index.toNat + k) % 4096) :
    memRead t.mem a = memRead s.mem a := by
  obtain rfl := Host.Outcome.next.inj h
  exact memRead_memWriteBytes_other hw (s.dataAddr 0) (bcdDigits (s.getV x)) a ha

end

/-! ### What `Fx55` leaves (R154) -/

/-- R154: an address that no stored register falls on reads as before. -/
theorem exec_storeRegs_memRead_other {s t : State} {x : Nibble} (h : exec (.storeRegs x) s = .next t)
    (hw : s.mem.wf = true) {a : Nat} (ha : ∀ k, k ≤ x.toNat → a % 4096 ≠ (s.index.toNat + k) % 4096) :
    memRead t.mem a = memRead s.mem a := by
  obtain rfl := Host.Outcome.next.inj h
  refine memRead_memWriteBytes_other hw (s.dataAddr 0) (s.regBlock x) a fun k hk => ha k ?_
  rw [State.regBlock_length] at hk
  omega

/-! ### The obligations -/

/-- Settles O23: each rule writes `I` and moves `pc` on; the values written are `zextAddr_eq`, `word_add_zextByte_eq` and
`glyphAddr_eq`. -/
theorem indexRegisterInstructions : Obligations.IndexRegisterInstructions := by
  unfold Obligations.IndexRegisterInstructions
  refine ⟨selects_rowOf (.ldI 0), selects_rowOf (.addI 0), selects_rowOf (.ldF 0), fun s =>
    ⟨fun nnn => ?ldI, fun x => ?addI, fun x => ?ldF⟩⟩
  case ldI => rw [← zextAddr_eq]; rfl
  case addI => rw [← word_add_zextByte_eq]; rfl
  case ldF => rw [← glyphAddr_eq]; rfl

/-- Settles O24: the three reads are `exec_ldB_memRead`, the frame is `exec_ldB_memRead_other`. -/
theorem bcdStoresThreeDigits : Obligations.BcdStoresThreeDigits := by
  unfold Obligations.BcdStoresThreeDigits
  refine ⟨selects_rowOf (.ldB 0), fun x s => ⟨_, rfl, rfl, fun hw => ⟨?hundreds, ?tens, ?ones, fun a ha => ?other⟩⟩⟩
  case hundreds => exact exec_ldB_memRead (k := 0) rfl hw (by decide)
  case tens => exact exec_ldB_memRead (k := 1) rfl hw (by decide)
  case ones => exact exec_ldB_memRead (k := 2) rfl hw (by decide)
  case other => exact exec_ldB_memRead_other rfl hw ha

/-- Settles O25: the block is read back by `exec_storeRegs_memRead`, the frame is `exec_storeRegs_memRead_other`. -/
theorem blockStoreWritesV0ToVx : Obligations.BlockStoreWritesV0ToVx := by
  unfold Obligations.BlockStoreWritesV0ToVx
  refine ⟨selects_rowOf (.storeRegs 0), fun x s => ⟨_, rfl, rfl, fun hw => ⟨fun k hk => ?block, fun a ha => ?other⟩⟩⟩
  case block => rw [exec_storeRegs_memRead rfl hw hk rfl, BitVec.ofNat_toNat, BitVec.setWidth_eq]
  case other => exact exec_storeRegs_memRead_other rfl hw ha

/-- Settles O26: the block load writes the register file alone (`State.loadBlock_eq`), `V0` to `Vx` of it. -/
theorem blockLoadReadsV0ToVx : Obligations.BlockLoadReadsV0ToVx := by
  unfold Obligations.BlockLoadReadsV0ToVx
  refine ⟨selects_rowOf (.loadRegs 0), fun x s => ⟨_, rfl, ?_, s.getV_loadBlock x⟩⟩
  exact congrArg State.next (s.loadBlock_eq x)

end Sys2Proof.Machine
end

section
/-! ## The display (spec/43_display.md R170 to R172)

The sprite loop of R171 is a plot of distinct cells (`drawRows_eq_plotAll`), so `Dxyn` is said twice, once for the cells it
toggles (`exec_drw_fbRead_ne_iff`) and once for `VF` (`exec_drw_flag_eq_one_iff`), in the sprite bits the claims speak of. R172
follows from those two alone. Every encoding clause is `selects_rowOf` at the instruction's row. -/

namespace Sys2Proof.Machine

open Sys2Proof.Claims

/-! ### The indices `Dxyn` plots (R171) -/

/-- The flat indices `Dxyn` plots from state `s`, in the loop's order. -/
def State.drawIndices (s : State) (x y n : Nibble) : List Nat :=
  spriteIndices (s.getV x).toNat (s.getV y).toNat 0 (s.spriteRows n)

/-- The canvas of `Dxyn` is a plot of its indices. -/
theorem State.canvasAfter_eq_plotAll (s : State) (x y n : Nibble) :
    s.canvasAfter x y n = plotAll ⟨s.fb, false⟩ (s.drawIndices x y n) :=
  drawRows_eq_plotAll ..

/-- R172: one `Dxyn` plots distinct cells, since a sprite has at most 15 rows. -/
theorem State.drawIndices_distinct (s : State) (x y n : Nibble) :
    (s.drawIndices x y n).Pairwise fun a b => a % 2048 ≠ b % 2048 :=
  spriteIndices_distinct _ _ _ _ (by rw [s.spriteRows_length]; omega)

/-- R171: row `i` of the sprite is the byte at `I + i`. -/
theorem State.spriteRows_getD (s : State) {n : Nibble} {i : Nat} (h : i < n.toNat) :
    (s.spriteRows n).getD i 0 = memRead s.mem (s.index.toNat + i) := by
  simp [State.spriteRows, State.dataAddr, h]

/-- R171: the plotted indices are those of the sprite bits. -/
theorem State.mem_drawIndices (s : State) (x y n : Nibble) (q : Nat) :
    q ∈ s.drawIndices x y n ↔
      ∃ i j, SpriteBit s n i j ∧ q = cellIndex (s.getV x).toNat (s.getV y).toNat i j := by
  rw [State.drawIndices, mem_spriteIndices, s.spriteRows_length]
  refine exists₂_congr fun i j => ?_
  rw [Nat.zero_add]
  constructor
  · rintro ⟨hi, hj, hbit, hq⟩
    exact ⟨⟨hi, hj, s.spriteRows_getD hi ▸ hbit⟩, hq⟩
  · rintro ⟨⟨hi, hj, hbit⟩, hq⟩
    exact ⟨hi, hj, s.spriteRows_getD hi ▸ hbit, hq⟩

/-- R52, R171: a property of cells holds at a plotted index exactly when it holds at the cell of a sprite bit. -/
theorem State.exists_mem_drawIndices (s : State) (x y n : Nibble) (p : Nat → Prop) :
    (∃ q ∈ s.drawIndices x y n, p (q % 2048)) ↔ ∃ i j, SpriteBit s n i j ∧ p (spriteCell s x y i j) := by
  constructor
  · rintro ⟨q, hq, hp⟩
    obtain ⟨i, j, hbit, rfl⟩ := (s.mem_drawIndices x y n q).mp hq
    exact ⟨i, j, hbit, hp⟩
  · rintro ⟨i, j, hbit, hp⟩
    exact ⟨_, (s.mem_drawIndices x y n _).mpr ⟨i, j, hbit, rfl⟩, hp⟩

/-! ### What `Dxyn` does to the cells and to `VF` (R171) -/

section
variable {x y n : Nibble} {s t : State} (h : exec (.drw x y n) s = .next t)
include h

/-- R171: `Dxyn` changes exactly the cells its sprite bits fall on. -/
theorem exec_drw_fbRead_ne_iff {c : Nat} (hc : c < 2048) :
    fbRead t.fb c ≠ fbRead s.fb c ↔ ∃ i j, SpriteBit s n i j ∧ spriteCell s x y i j = c := by
  obtain rfl := Host.Outcome.next.inj h
  have hread := fbRead_plotAll ⟨s.fb, false⟩ _ (s.drawIndices_distinct x y n) c
  rw [← s.canvasAfter_eq_plotAll, Nat.mod_eq_of_lt hc] at hread
  rw [State.next_fb, State.setV_fb, State.setFb_fb, hread, ← s.exists_mem_drawIndices x y n (· = c)]
  cases fbRead s.fb c <;> simp

/-- R171: `VF` is 1 exactly when a sprite bit met a cell that was 1. -/
theorem exec_drw_flag_eq_one_iff :
    t.getV 0xF = 1 ↔ ∃ i j, SpriteBit s n i j ∧ fbRead s.fb (spriteCell s x y i j) = true := by
  obtain rfl := Host.Outcome.next.inj h
  have hcol := collision_plotAll ⟨s.fb, false⟩ _ (s.drawIndices_distinct x y n)
  rw [← s.canvasAfter_eq_plotAll] at hcol
  rw [State.next_getV, State.getV_setV, if_pos rfl, flagByte_eq_one, hcol, Bool.false_or, decide_eq_true_iff,
    ← s.exists_mem_drawIndices x y n (fun q => fbRead s.fb q = true)]
  simp only [fbRead_mod]

/-! ### Collision and self-inverse (R172) -/

/-- R172: `VF` is 1 exactly when a cell that was 1 is 0. -/
theorem exec_drw_flag_eq_one_iff_erased :
    t.getV 0xF = 1 ↔ ∃ c, c < 2048 ∧ fbRead s.fb c = true ∧ fbRead t.fb c = false := by
  rw [exec_drw_flag_eq_one_iff h]
  constructor
  · rintro ⟨i, j, hbit, hset⟩
    have hc : spriteCell s x y i j < 2048 := Nat.mod_lt _ (by decide)
    have hne := (exec_drw_fbRead_ne_iff h hc).mpr ⟨i, j, hbit, rfl⟩
    rw [hset, ne_eq, Bool.not_eq_true] at hne
    exact ⟨_, hc, hset, hne⟩
  · rintro ⟨c, hc, hset, hclear⟩
    obtain ⟨i, j, hbit, rfl⟩ := (exec_drw_fbRead_ne_iff h hc).mp (by simp [hset, hclear])
    exact ⟨i, j, hbit, hset⟩

/-- R172: the same draw from a state with the framebuffer the first one left restores the framebuffer: both toggle the same
cells. -/
theorem exec_drw_self_inverse {w : State} (hfb : w.fb = t.fb) (hI : w.index = s.index) (hx : w.getV x = s.getV x)
    (hy : w.getV y = s.getV y) (hmem : ∀ a, memRead w.mem a = memRead s.mem a) :
    ∃ u, exec (.drw x y n) w = .next u ∧ u.fb = s.fb := by
  refine ⟨_, rfl, Framebuffer.ext_of_fbRead fun c hc => ?_⟩
  have hfirst := exec_drw_fbRead_ne_iff h hc
  have hsecond := exec_drw_fbRead_ne_iff (x := x) (y := y) (n := n) (s := w) rfl hc
  have hsame : (∃ i j, SpriteBit w n i j ∧ spriteCell w x y i j = c) ↔
      ∃ i j, SpriteBit s n i j ∧ spriteCell s x y i j = c := by
    simp only [SpriteBit, spriteCell, hI, hx, hy, hmem]
  rw [hsame, ← hfirst, hfb] at hsecond
  by_cases htog : fbRead t.fb c = fbRead s.fb c
  · exact (not_ne_iff.mp fun hne => hsecond.mp hne htog).trans htog
  · exact (Bool.eq_not.mpr (hsecond.mpr htog)).trans (Bool.not_eq.mpr htog)

end

/-! ### The obligations -/

/-- Settles O27: the rule of `00E0` writes the cleared framebuffer. -/
theorem clearScreenClearsEveryCell : Obligations.ClearScreenClearsEveryCell :=
  ⟨selects_rowOf .cls, fun _ => ⟨_, rfl, rfl, fbRead_fbClear⟩⟩

/-- Settles O28: the cells are `exec_drw_fbRead_ne_iff`, the flag is `exec_drw_flag_eq_one_iff`; the other registers are
outside R10's row for `Dxyn`. -/
theorem drawTogglesTheSpriteCells : Obligations.DrawTogglesTheSpriteCells := by
  unfold Obligations.DrawTogglesTheSpriteCells
  refine ⟨selects_rowOf (.drw 0 0 0), fun x y n s => ?_⟩
  have h : exec (.drw x y n) s = .next _ := rfl
  exact ⟨_, h, rfl, fun c => exec_drw_fbRead_ne_iff h, exec_getV_flag h trivial, exec_drw_flag_eq_one_iff h,
    fun r hr => exec_getV_of_not_mayWrite h hr⟩

/-- Settles O29: `exec_drw_flag_eq_one_iff_erased`, `exec_drw_self_inverse` and `cellIndex_inj`. A draw leaves `I`, the memory
and every register but `VF`, so it can be followed by itself when neither `x` nor `y` is `F`. -/
theorem drawCollisionAndSelfInverse : Obligations.DrawCollisionAndSelfInverse := by
  unfold Obligations.DrawCollisionAndSelfInverse
  refine ⟨fun x y n s t h => ⟨exec_drw_flag_eq_one_iff_erased h, fun w => exec_drw_self_inverse h⟩,
    fun x y n s t hx hy h => ?again, fun x y s i j i' j' hi hj hi' hj' => ?distinct⟩
  case again =>
    have hI : t.index = s.index := exec_index h nofun nofun nofun
    have hmem : t.mem = s.mem := exec_mem h nofun nofun
    exact exec_drw_self_inverse h rfl hI (exec_getV_of_not_mayWrite h hx) (exec_getV_of_not_mayWrite h hy)
      fun a => congrArg (memRead · a) hmem
  case distinct => exact cellIndex_inj (by omega) hj (by omega) hj'

end Sys2Proof.Machine
end

section
/-! ## Keys and timer (spec/44_keys_timer.md R190 to R195)

No instruction of the family raises a fault, so the step that runs one ticks what its rule left (`step_of_exec`). The scan of
`Fx0A` is read off the key map by number (`State.highestKey_eq_some_ofFin`), as the claims speak of keys. Every encoding clause
is `selects_rowOf` at the instruction's row. -/

namespace Sys2Proof.Machine

open Sys2Proof.Claims

/-! ### The step that runs an instruction without a fault (R33) -/

/-- R21, R33: the step that runs an instruction other than the two that can fault ticks the state its rule left. -/
theorem step_of_exec {i : Instr} {s t : State} (hs : s.fault = .none) (hi : s.fetched = .instr i) (h : exec i s = .next t)
    (hc : ∀ nnn, i ≠ .call nnn) (hr : i ≠ .ret) : step s = .next (ticked t) := by
  have ht : t.fault = .none := (exec_fault h hc hr).trans hs
  rw [step_of_instr hs hi, h, endOutcome, t.endStep_running ht, t.tick_eq_ticked]

/-- R21: the ticked timer as a number. -/
theorem ticked_dt_toNat (s : State) : (ticked s).dt.toNat = s.dt.toNat - 1 := s.tick_eq_ticked ▸ s.tick_dt_toNat

/-- R28, R211: a word that decodes to an instruction is not reported. -/
theorem State.report_of_instr {s : State} {i : Instr} (h : s.fetched = .instr i) : s.report = none := by
  simp [State.report, h]

/-! ### The keys by number (R53, R193) -/

/-- R193: the scan finds nothing when no key is pressed. -/
theorem State.highestKey_eq_none_of_keys {s : State} (h : ∀ k : Fin 16, s.keys[k] = false) : s.highestKey = none :=
  s.highestKey_eq_none.mpr fun k => h k.toFin

/-- R193: the scan finds the pressed key that no pressed key is above. -/
theorem State.highestKey_eq_some_ofFin {s : State} {k : Fin 16} (hk : s.keys[k] = true)
    (habove : ∀ j : Fin 16, k < j → s.keys[j] = false) : s.highestKey = some (BitVec.ofFin k) :=
  (s.highestKey_eq_some _).mpr ⟨hk, fun j hj => habove j.toFin hj⟩

/-- R193: the number of a key as a byte. -/
theorem nibble_setWidth_8_ofFin (k : Fin 16) : (BitVec.ofFin k : Nibble).setWidth 8 = BitVec.ofNat 8 k.val :=
  (BitVec.ofNat_toNat 8 (BitVec.ofFin k : Nibble)).symm

/-! ### The rule of `Fx0A` by the result of the scan (R193) -/

section
variable {s : State}

/-- R193: `Fx0A` with a key found. -/
theorem exec_ldVxK_of_some {k : Nibble} (h : s.highestKey = some k) (x : Nibble) :
    exec (.ldVxK x) s = .next (s.setV x (k.setWidth 8)).next := by
  rw [exec, execLdVxK, h]

/-- R193: `Fx0A` with no key found. -/
theorem exec_ldVxK_of_none (h : s.highestKey = none) (x : Nibble) : exec (.ldVxK x) s = .next s := by
  rw [exec, execLdVxK, h]

end

/-! ### The timer's bytes (R192, R194) -/

/-- R192: the low 8 bits of the timer, as a number. -/
theorem word_setWidth_8_eq (a : Word) : a.setWidth 8 = BitVec.ofNat 8 (a.toNat % 256) :=
  BitVec.eq_of_toNat_eq (by rw [BitVec.toNat_setWidth, BitVec.toNat_ofNat, Nat.mod_mod])

/-- R194: the zero-extended register, as a number. -/
theorem zextByte_eq (b : Byte) : zextByte b = BitVec.ofNat 16 b.toNat := (BitVec.ofNat_toNat 16 b).symm

/-- R192, R34: where the invariant holds the timer fits a byte. -/
theorem State.Inv.dt_byte_toNat {s : State} (h : s.Inv) : (BitVec.ofNat 8 (s.dt.toNat % 256) : Byte).toNat = s.dt.toNat := by
  have hdt : s.dt.toNat < 256 := Nat.lt_succ_of_le h.dt_le
  rw [BitVec.toNat_ofNat, Nat.mod_mod, Nat.mod_eq_of_lt hdt]

/-! ### The obligations -/

/-- Settles O30: both rules are the skip on the key selected by the low 4 bits of `V[x]` (`State.selectedKey_eq`). -/
theorem skipOnKey : Obligations.SkipOnKey := by
  unfold Obligations.SkipOnKey
  refine ⟨selects_rowOf (.skp 0), selects_rowOf (.sknp 0), fun x s => ⟨?pressed, ?notPressed⟩⟩
  case pressed => rw [← s.selectedKey_eq, ← s.skipIf_decide, Bool.decide_eq_true]; rfl
  case notPressed => rw [← s.selectedKey_eq, ← s.skipIf_decide, Bool.decide_eq_false]; rfl

/-- Settles O31: the scan finds the highest pressed key, or none; every `Fx0A` answers, so the tick follows in both cases. -/
theorem waitForKeyTakesTheHighest : Obligations.WaitForKeyTakesTheHighest := by
  unfold Obligations.WaitForKeyTakesTheHighest
  refine ⟨selects_rowOf (.ldVxK 0), fun x s => ⟨fun k hk habove => ?highest, fun hnone => ?none, fun hs hi => ?tick⟩⟩
  case highest =>
    exact writesV_of_setV (exec_ldVxK_of_some (State.highestKey_eq_some_ofFin hk habove) x) (nibble_setWidth_8_ofFin k)
  case none => exact exec_ldVxK_of_none (State.highestKey_eq_none_of_keys hnone) x
  case tick =>
    obtain ⟨t, ht⟩ : ∃ t, exec (.ldVxK x) s = .next t := by
      cases hk : s.highestKey with
      | some k => exact ⟨_, exec_ldVxK_of_some hk x⟩
      | none => exact ⟨_, exec_ldVxK_of_none hk x⟩
    exact ⟨t, ht, step_of_exec hs hi ht nofun nofun⟩

/-- Settles O32: the rule copies the timer it finds, and the tick that follows touches the timer alone. -/
theorem readTimerBeforeTheTick : Obligations.ReadTimerBeforeTheTick := by
  unfold Obligations.ReadTimerBeforeTheTick
  refine ⟨selects_rowOf (.ldVxDt 0), fun x s =>
    ⟨writesV_of_setV rfl (word_setWidth_8_eq s.dt), State.Inv.dt_byte_toNat, fun hs hi => ?_⟩⟩
  have hv : (s.setV x (s.dt.setWidth 8)).next.getV x = BitVec.ofNat 8 (s.dt.toNat % 256) := by
    rw [State.next_getV, State.getV_setV, if_pos rfl, word_setWidth_8_eq]
  exact ⟨_, step_of_exec hs hi rfl nofun nofun, hv, ticked_dt_toNat _⟩

/-- Settles O33: the tick lowers the timer the rule has loaded, and touches nothing else. -/
theorem setTimerIsTickedAtOnce : Obligations.SetTimerIsTickedAtOnce := by
  unfold Obligations.SetTimerIsTickedAtOnce
  refine ⟨selects_rowOf (.ldDtVx 0), fun x s => ⟨?exec, fun hs hi => ⟨_, step_of_exec hs hi rfl nofun nofun, ?dt, rfl⟩⟩⟩
  case exec => rw [← zextByte_eq]; rfl
  case dt => rw [ticked_dt_toNat, State.next_dt, State.setDt_dt, zextByte_toNat]

/-- Settles O34: the rule is `State.next`, and a decoded instruction is not reported. -/
theorem soundTimerLoadIsNoOperation : Obligations.SoundTimerLoadIsNoOperation :=
  ⟨selects_rowOf (.ldStVx 0), fun _ _ => ⟨rfl, State.report_of_instr⟩⟩

end Sys2Proof.Machine
end

section
/-! ## Exceptional conditions (spec/60_exceptions.md R210 to R217)

The report event is characterised once (`State.report_eq_some_iff`), as is a step that ends with a fault
(`step_raises_fault_cases`): the converses are the steps of `00EE` on an empty stack and of `2nnn` on a full one. That such a
step changes `fault` alone is `step_of_fault`. -/

namespace Sys2Proof.Machine

open Sys2Proof.Claims

/-! ### The report event (R28, R211) -/

/-- R33: the fetched instruction is the decoded word at `pc`. -/
theorem State.fetched_eq_decode_fetch (s : State) : s.fetched = decode s.fetch := rfl

/-- R28, R211: a step reports a word exactly when it fetches that word without a fault and the word is no instruction. -/
theorem State.report_eq_some_iff {s : State} {op : Word} :
    s.report = some op ↔ s.fault = .none ∧ s.fetch = op ∧ ∃ g, decode op = .unknown g := by
  constructor
  · intro h
    unfold State.report at h
    split at h
    · next g hh hg =>
      obtain rfl := Option.some.inj h
      exact ⟨State.halted_eq_false.mp hh, rfl, g, hg⟩
    · cases h
  · rintro ⟨hs, rfl, g, hg⟩
    rw [State.report, State.halted_eq_false.mpr hs, s.fetched_eq_decode_fetch, hg]

/-- R216: a halted core reports nothing. -/
theorem State.report_of_halted {s : State} (h : s.fault ≠ .none) : s.report = none :=
  Option.eq_none_iff_forall_ne_some.mpr fun _ hop => h (State.report_eq_some_iff.mp hop).1

/-! ### The halted core (R216) -/

/-- R216: no number of steps changes a halted core. -/
theorem run_of_halted {s : State} (h : s.fault ≠ .none) (k : Nat) : core.run k s = .next s := by
  induction k with
  | zero => rfl
  | succ k ih => exact (run_succ_of_step (M := core) (step_of_halted h) k).trans ih

/-! ### The codes of the fault register (R29, R210) -/

theorem faultCode_eq_zero_or_one_or_two (c : FaultReg) : faultCode c = 0 ∨ faultCode c = 1 ∨ faultCode c = 2 := by
  cases c <;> decide

theorem faultCode_eq_one_iff {c : FaultReg} : faultCode c = 1 ↔ c = .stackUnderflow := by cases c <;> decide

theorem faultCode_eq_two_iff {c : FaultReg} : faultCode c = 2 ↔ c = .stackOverflow := by cases c <;> decide

/-! ### The two faults of the stack (R212, R213, R215) -/

/-- R210, R215: an instruction that raises a fault is `00EE` with the stack empty or `2nnn` with the stack full. -/
theorem exec_raises_fault_cases {i : Instr} {s t : State} (h : exec i s = .next t) (hs : s.fault = .none)
    (ht : t.fault ≠ .none) :
    (t.fault = .stackUnderflow ∧ i = .ret ∧ s.sp = 0) ∨
    (t.fault = .stackOverflow ∧ (∃ nnn, i = .call nnn) ∧ 48 ≤ s.sp.toNat) := by
  cases i with
  | ret =>
    obtain ⟨h0, rfl⟩ | ⟨-, a, -, rfl⟩ := execRet_cases h
    · exact .inl ⟨rfl, rfl, h0⟩
    · exact absurd hs ht
  | call nnn =>
    obtain ⟨-, rfl⟩ | ⟨hfull, rfl⟩ := execCall_cases h
    · exact absurd hs ht
    · exact .inr ⟨rfl, ⟨nnn, rfl⟩, hfull⟩
  | _ => exact absurd ((exec_fault h nofun nofun).trans hs) ht

section
variable {s : State} (hs : s.fault = .none)
include hs

/-- R210, R215: a step that raises a fault runs `00EE` with the stack empty or `2nnn` with the stack full. -/
theorem step_raises_fault_cases {t : State} (h : step s = .next t) (ht : t.fault ≠ .none) :
    (t.fault = .stackUnderflow ∧ s.fetched = .instr .ret ∧ s.sp = 0) ∨
    (t.fault = .stackOverflow ∧ (∃ nnn, s.fetched = .instr (.call nnn)) ∧ 48 ≤ s.sp.toNat) := by
  obtain ⟨hh, -⟩ | ⟨-, i, u, hi, hu, rfl⟩ | ⟨-, g, -, rfl⟩ := step_cases h
  · exact absurd hs (State.halted_eq_true.mp hh)
  · rw [State.endStep_fault] at ht ⊢
    obtain ⟨hf, rfl, h0⟩ | ⟨hf, ⟨nnn, rfl⟩, hfull⟩ := exec_raises_fault_cases hu hs ht
    · exact .inl ⟨hf, hi, h0⟩
    · exact .inr ⟨hf, ⟨nnn, hi⟩, hfull⟩
  · exact absurd (s.unknownOpcode.endStep_fault.trans hs) ht

/-- R216: a step whose instruction raises a fault ends there, without the tick. -/
theorem step_of_exec_raise {i : Instr} {cause : FaultReg} (hi : s.fetched = .instr i)
    (h : exec i s = .next (s.raise cause)) (hc : cause ≠ .none) : step s = .next (s.raise cause) := by
  rw [step_of_instr hs hi, h, endOutcome, State.endStep_halted _ hc]

/-- R212, R215: a step raises `StackUnderflow` exactly on `00EE` with the stack empty. -/
theorem step_raises_stackUnderflow_iff :
    (∃ t, step s = .next t ∧ t.fault = .stackUnderflow) ↔ s.fetched = .instr .ret ∧ s.sp = 0 := by
  constructor
  · rintro ⟨t, h, ht⟩
    obtain ⟨-, hret⟩ | ⟨hover, -⟩ := step_raises_fault_cases hs h (by simp [ht])
    · exact hret
    · cases ht.symm.trans hover
  · rintro ⟨hi, h0⟩
    exact ⟨_, step_of_exec_raise hs hi (exec_ret_of_sp_eq_zero h0) nofun, rfl⟩

/-- R213, R215: a step raises `StackOverflow` exactly on `2nnn` with the stack full. -/
theorem step_raises_stackOverflow_iff :
    (∃ t, step s = .next t ∧ t.fault = .stackOverflow) ↔
      (∃ nnn, s.fetched = .instr (.call nnn)) ∧ 48 ≤ s.sp.toNat := by
  constructor
  · rintro ⟨t, h, ht⟩
    obtain ⟨hunder, -⟩ | ⟨-, hcall⟩ := step_raises_fault_cases hs h (by simp [ht])
    · cases ht.symm.trans hunder
    · exact hcall
  · rintro ⟨⟨nnn, hi⟩, hfull⟩
    exact ⟨_, step_of_exec_raise hs hi (exec_call_of_le hfull nnn) nofun, rfl⟩

end

/-! ### The host's moves on a halted core (R217) -/

/-- R241, R242: no `load` that the session answers writes the fault register. -/
theorem Session.load_fault {a b : Session} {rom : List Byte} {r : Reply} (h : a.load rom = some (b, r)) :
    b.core.fault = a.core.fault := by
  obtain hl | rfl := Session.load_cases h
  · rw [State.load_eq_loaded hl, State.setMem_fault]
  · rfl

/-- R216: a `step` of a halted core leaves the core as it was. -/
theorem Session.step_core_of_halted {a b : Session} {r : Reply} (h : a.step = some (b, r)) (ha : a.core.fault ≠ .none) :
    b.core = a.core :=
  Host.Outcome.next.inj ((Session.step_core h).symm.trans (step_of_halted ha))

/-- R217: in a session with a halted core no move but `reset` writes the fault register. -/
theorem Session.move_fault_of_halted {a b : Session} {m : Move} {r : Reply} (h : a.move m = some (b, r))
    (ha : a.core.fault ≠ .none) (hm : m ≠ .reset) : b.core.fault = a.core.fault := by
  cases m with
  | reset => exact absurd rfl hm
  | load rom => exact Session.load_fault h
  | step => rw [Session.step_core_of_halted h ha]
  | writeKey k p =>
    obtain ⟨rfl, -⟩ := Prod.mk.inj (Option.some.inj h)
    exact a.core.writeKey_fault k p
  | consumeFrame =>
    obtain ⟨rfl, -⟩ := Prod.mk.inj (Option.some.inj h)
    exact a.core.consumeFrame_fault

/-! ### The obligations -/

/-- Settles O35: both directions of `State.report_eq_some_iff`, and the step of an unknown opcode. -/
theorem unknownOpcodeIsReportedAndSkipped : Obligations.UnknownOpcodeIsReportedAndSkipped := by
  unfold Obligations.UnknownOpcodeIsReportedAndSkipped
  refine ⟨fun s g hs hg => ⟨?report, step_of_unknown hs hg⟩, fun s op h => State.report_eq_some_iff.mp h⟩
  case report => exact State.report_eq_some_iff.mpr ⟨hs, rfl, g, hg⟩

/-- Settles O36: the frame of a faulting step (`step_of_fault`), and the halted core's report and runs. -/
theorem faultChangesOnlyTheFaultRegister : Obligations.FaultChangesOnlyTheFaultRegister :=
  ⟨fun _ _ _ h ht => step_of_fault h ht, fun _ hs => ⟨State.report_of_halted hs, run_of_halted hs⟩⟩

/-- Settles O37: the two characterisations of the raised fault; where `sp` is at most 48, the stack is full at 48 alone. -/
theorem faultsAreTheTwoOfTheStack : Obligations.FaultsAreTheTwoOfTheStack := by
  unfold Obligations.FaultsAreTheTwoOfTheStack
  intro s hs hsp
  have hfull : 48 ≤ s.sp.toNat ↔ s.sp.toNat = 48 := hsp.ge_iff_eq
  refine ⟨?underflow, ?overflow, fun t _ => faultCode_eq_zero_or_one_or_two t.fault⟩
  case underflow => simpa only [faultCode_eq_one_iff] using step_raises_stackUnderflow_iff hs
  case overflow => simpa only [faultCode_eq_two_iff, hfull] using step_raises_stackOverflow_iff hs

/-- Settles O38, by the move: `reset` gives R32's values, and no other move writes the fault register of a halted core. -/
theorem faultIsClearedByResetAlone : Obligations.FaultIsClearedByResetAlone := by
  unfold Obligations.FaultIsClearedByResetAlone
  intro a b m r ha h
  refine ⟨?reset, Session.move_fault_of_halted h ha⟩
  case reset =>
    rintro rfl
    obtain ⟨rfl, -⟩ := Prod.mk.inj (Option.some.inj h)
    exact ⟨rfl, a.core.resetCommand_isReset⟩

end Sys2Proof.Machine
end

section
/-! ## Reset, load and the host (spec/70_reset_and_hazards.md R240 to R249)

R249 is settled through `State.Idles`: an instruction that leaves `pc` and `sp` where they are, and raises nothing, is one of
the three idle loops (`idles_of_exec`), and these change nothing (`exec_of_idles`). A session's commands are said once per
phase of R243 and outcome. -/

namespace Sys2Proof.Machine

open Sys2Proof.Claims

/-! ### The idle loops (R249) -/

/-- R249: the instruction is one of the three that leave a state with `dt = 0` as it is: a jump to itself, an `Fx0A` with no
key pressed, a `Bnnn` with `nnn + V0 = pc`. -/
def State.Idles (s : State) : Instr → Prop
  | .jp nnn => nnn.toNat = s.pc.toNat
  | .jpV0 nnn => nnn.toNat + (s.getV 0).toNat = s.pc.toNat
  | .ldVxK _ => ∀ k : Fin 16, s.keys[k] = false
  | _ => False

/-- R101, R107: a transfer to the state's own `pc` changes nothing. -/
theorem State.setPc_of_toNat_eq {s : State} {a : Word} (h : a.toNat = s.pc.toNat) : s.setPc a = s := by
  rw [BitVec.eq_of_toNat_eq h]; rfl

/-- R249: an idle loop's rule leaves the state as it is. -/
theorem exec_of_idles {i : Instr} {s : State} (h : s.Idles i) : exec i s = .next s := by
  cases i with
  | jp nnn => exact congrArg Host.Outcome.next (State.setPc_of_toNat_eq ((zextAddr_toNat nnn).trans h))
  | jpV0 nnn => exact congrArg Host.Outcome.next (State.setPc_of_toNat_eq ((s.indexedTarget_toNat nnn).trans h))
  | ldVxK x => exact exec_ldVxK_of_none (State.highestKey_eq_none_of_keys h) x
  | _ => exact h.elim

/-- R15: the sequencer's default moves `pc`, wrap included. -/
theorem word_add_two_ne (a : Word) : a + 2 ≠ a := by bv_omega

/-- R103: so does a skip, taken or not. -/
theorem word_skip_ne (a : Word) (c : Prop) [Decidable c] : (if c then a + 4 else a + 2) ≠ a := by split <;> bv_omega

/-- R249: an instruction that leaves `pc` and `sp` and raises no fault is an idle loop. A `2nnn` or an `00EE` without a fault
moves `sp`, wherever it jumps. -/
theorem idles_of_exec {i : Instr} {s t : State} (h : exec i s = .next t) (ht : t.fault = .none) (hpc : t.pc = s.pc)
    (hsp : t.sp = s.sp) : s.Idles i := by
  have hnext : nextPc s i = s.pc := (exec_pc h ht).symm.trans hpc
  cases i with
  | jp nnn => exact (zextAddr_toNat nnn).symm.trans (congrArg BitVec.toNat hnext)
  | jpV0 nnn => exact (s.indexedTarget_toNat nnn).symm.trans (congrArg BitVec.toNat hnext)
  | ldVxK x =>
    intro k
    by_contra hk
    have hpressed : ∃ k : Fin 16, s.keys[k] = true := ⟨k, Bool.eq_true_of_not_eq_false hk⟩
    exact word_add_two_ne _ ((if_pos hpressed).symm.trans hnext)
  | call nnn =>
    obtain ⟨-, rfl⟩ | ⟨-, rfl⟩ := execCall_cases h
    · rw [State.setPc_sp, State.push_sp] at hsp; bv_omega
    · cases ht
  | ret =>
    obtain ⟨-, rfl⟩ | ⟨-, a, -, rfl⟩ := execRet_cases h
    · cases ht
    · rw [State.setPc_sp, State.popped_sp] at hsp; bv_omega
  | seImm _ _ | sneImm _ _ | seReg _ _ | sneReg _ _ | skp _ | sknp _ => exact word_skip_ne _ _ hnext
  | _ => exact word_add_two_ne _ hnext

/-- R21: the tick changes nothing exactly when the timer is at 0. -/
theorem State.tick_eq_self_iff {s : State} : s.tick = s ↔ s.dt = 0 := by
  constructor
  · intro h
    have hdt := s.tick_dt_toNat
    rw [h] at hdt
    exact BitVec.eq_of_toNat_eq (show s.dt.toNat = 0 by omega)
  · exact fun h => if_pos h

/-- R249: a running core's step changes nothing exactly when `dt = 0` and the instruction at `pc` is an idle loop. -/
theorem step_eq_self_iff {s : State} (hs : s.fault = .none) :
    step s = .next s ↔ s.dt = 0 ∧ ∃ i, s.fetched = .instr i ∧ s.Idles i := by
  constructor
  · intro h
    obtain ⟨-, u, hu, hrule⟩ := step_of_no_fault h hs
    rw [State.tick_eq] at hu
    have hpc : u.pc = s.pc := (congrArg State.pc hu).symm
    obtain ⟨i, hi, hexec⟩ | ⟨g, -, rfl⟩ := hrule
    · have hidle := idles_of_exec hexec ((congrArg State.fault hu).symm.trans hs) hpc (congrArg State.sp hu).symm
      obtain rfl : u = s := Host.Outcome.next.inj (hexec.symm.trans (exec_of_idles hidle))
      exact ⟨State.tick_eq_self_iff.mp (u.tick_eq.trans hu.symm), i, hi, hidle⟩
    · exact absurd hpc (word_add_two_ne s.pc)
  · rintro ⟨hdt, i, hi, hidle⟩
    rw [step_of_instr hs hi, exec_of_idles hidle, endOutcome, s.endStep_running hs, State.tick_eq_self_iff.mpr hdt]

/-- The three idle loops, by the instruction fetched. -/
theorem exists_idles_iff {s : State} :
    (∃ i, s.fetched = .instr i ∧ s.Idles i) ↔
      (∃ nnn : Addr, s.fetched = .instr (.jp nnn) ∧ nnn.toNat = s.pc.toNat) ∨
      (∃ x, s.fetched = .instr (.ldVxK x) ∧ ∀ k : Fin 16, s.keys[k] = false) ∨
      (∃ nnn : Addr, s.fetched = .instr (.jpV0 nnn) ∧ nnn.toNat + (s.getV 0).toNat = s.pc.toNat) := by
  constructor
  · rintro ⟨i, hi, hidle⟩
    cases i with
    | jp nnn => exact .inl ⟨nnn, hi, hidle⟩
    | ldVxK x => exact .inr (.inl ⟨x, hi, hidle⟩)
    | jpV0 nnn => exact .inr (.inr ⟨nnn, hi, hidle⟩)
    | _ => exact hidle.elim
  · rintro (⟨nnn, h⟩ | ⟨x, h⟩ | ⟨nnn, h⟩)
    exacts [⟨.jp nnn, h⟩, ⟨.ldVxK x, h⟩, ⟨.jpV0 nnn, h⟩]

/-! ### The load (R241, R242) -/

/-- R241: a ROM of at most 3584 bytes is loaded. -/
theorem State.load_of_le {rom : List Byte} (h : rom.length ≤ 3584) (s : State) :
    s.load rom = .loaded (s.setMem (memWriteBytes s.mem 512 rom)) := if_pos (decide_eq_true h)

/-- R242: a longer one is not. -/
theorem State.load_of_lt {rom : List Byte} (h : 3584 < rom.length) (s : State) : s.load rom = .romTooLarge :=
  if_neg (by simpa [romWellFormed] using h)

/-! ### The commands of a session by its phase (R243, log entry 8) -/

section
variable {a : Session} {rom : List Byte}

theorem Session.load_of_running (ha : a.phase = .running) : a.load rom = none := by rw [Session.load, ha]

theorem Session.step_of_fresh (ha : a.phase = .fresh) : a.step = none := by rw [Session.step, ha]

theorem Session.load_of_loaded {t : State} (ha : a.phase ≠ .running) (h : a.core.load rom = .loaded t) :
    a.load rom = some (⟨t, .loaded⟩, .done) := by
  rw [Session.load, h]
  cases hp : a.phase with
  | running => exact absurd hp ha
  | _ => rfl

theorem Session.load_of_romTooLarge (ha : a.phase ≠ .running) (h : a.core.load rom = .romTooLarge) :
    a.load rom = some (a, .romTooLarge) := by
  rw [Session.load, h]
  cases hp : a.phase with
  | running => exact absurd hp ha
  | _ => rfl

theorem Session.step_of_next {t : State} (ha : a.phase ≠ .fresh) (h : Machine.step a.core = .next t) :
    a.step = some (⟨t, .running⟩, .stepped a.core.report) := by
  rw [Session.step, h]
  cases hp : a.phase with
  | fresh => exact absurd hp ha
  | _ => rfl

end

/-! ### The obligations -/

/-- Settles O50: a halted core's step changes nothing, a running one's exactly in an idle loop with the timer at 0. -/
theorem statesNoStepCanChange : Obligations.StatesNoStepCanChange := by
  unfold Obligations.StatesNoStepCanChange
  intro s
  rw [← exists_idles_iff]
  by_cases hs : s.fault = .none
  · rw [step_eq_self_iff hs, or_iff_right (not_not_intro hs)]
  · exact iff_of_true (step_of_halted hs) (.inl hs)

/-- Settles O52: the ROM fits between 512 and 4096, so its addresses are distinct and none wraps to another. -/
theorem loadCopiesTheRom : Obligations.LoadCopiesTheRom := by
  unfold Obligations.LoadCopiesTheRom
  intro s rom hl
  refine ⟨_, State.load_of_le hl s, rfl, fun hw => ⟨fun k hk => ?copied, fun a ha hout => ?kept⟩⟩
  case copied => exact memRead_memWriteBytes_same hw 512 rom (by omega) k hk
  case kept => exact memRead_memWriteBytes_other hw 512 rom a fun k hk => by omega

/-- Settles O54, clause by clause: the phase decides which command answers. -/
theorem hostKeepsTheBootOrder : Obligations.HostKeepsTheBootOrder := by
  unfold Obligations.HostKeepsTheBootOrder
  refine ⟨rfl, fun _ => Session.step_of_fresh, fun _ _ => Session.load_of_running, fun a rom ha hl => ?load,
    fun _ _ => Session.step_of_next, fun a => ?reset⟩
  case load => exact ⟨_, Session.load_of_loaded ha (State.load_of_le hl a.core), rfl⟩
  case reset => exact ⟨_, rfl, rfl, a.core.resetCommand_isReset⟩

/-- Settles O53: the core's `load` answers before it writes, and the session keeps its core and phase. -/
theorem oversizeLoadLeavesTheCoreUnmodified : Obligations.OversizeLoadLeavesTheCoreUnmodified := by
  unfold Obligations.OversizeLoadLeavesTheCoreUnmodified
  intro a rom hl ha
  have hfail : a.core.load rom = .romTooLarge := State.load_of_lt hl a.core
  exact ⟨hfail, Session.load_of_romTooLarge ha hfail⟩

/-- Settles O55: the key map after a key write is `State.key_writeKey`; the rest is what the moves are. -/
theorem hostMovesTouchKeysAndDrawFlagOnly : Obligations.HostMovesTouchKeysAndDrawFlagOnly :=
  ⟨fun a k p => ⟨_, rfl, rfl, rfl, fun q => a.core.key_writeKey k q p⟩, fun _ => rfl, fun _ => rfl⟩

end Sys2Proof.Machine
end
